-- ==== Sys2Proof/Word.lean ====
section
/-! DEFINITION. The word and byte types of the core (R10, R12): "a 16-bit unit of memory and instruction encoding". -/

namespace Sys2Proof

/-- A word: a register, a memory cell, an instruction word or an address (R5, R10). -/
abbrev Word := BitVec 16

/-- A byte: an element of the console stream (R50) or of a binary image (R97). -/
abbrev Byte := BitVec 8

end Sys2Proof
end

