-- ==== Sys2Proof/Config.lean ====
section
/-! DEFINITION. The named parameters of R6: their types. Their values stand in Sys2Proof/Machine/Params.lean and, for
OPCODE_MAP, in Sys2Proof/Decode.lean. The spec leaves no value free, so there is no opaque constant here. -/

namespace Sys2Proof.Config

/-- `PUSH_FIELD` (D3): which field of the first word names the register PUSH stores. -/
inductive PushField where
  | rd
  | rs
  deriving DecidableEq, Repr

/-- `NOT_FORM` (D4): whether NOT complements `rs` into `rd` or complements `rd` in place. -/
inductive NotForm where
  | twoOperand
  | oneOperand
  deriving DecidableEq, Repr

/-- `ST_IND_ROLES` (D5): which register of ST_IND holds the data and which the address. -/
inductive StIndRoles where
  | dataRdAddrRs
  | addrRdDataRs
  deriving DecidableEq, Repr

/-- `CYCLE_COSTS` (D10): what each event adds to the cycle counter, and whether a write in the MMIO window counts. -/
structure CycleCosts where
  fetch : BitVec 64
  regWrite : BitVec 64
  memWrite : BitVec 64
  mmioWritesCount : Bool
  deriving DecidableEq, Repr

/-- The parameters of R6 other than `OPCODE_MAP`, under the spec's names. -/
structure Parameters where
  pushField : PushField
  notForm : NotForm
  stIndRoles : StIndRoles
  spUpdateSideEffects : Bool
  cycleCosts : CycleCosts
  mmioReadDefault : Word
  fetchRouted : Bool
  resetClearsMemory : Bool
  deriving DecidableEq, Repr

end Sys2Proof.Config
end

