-- ==== Sys2Proof/Machine/Params.lean ====
section
/-! DEFINITION. The values the model fixes: every parameter of R6 at the spec's default, and the addresses of the MMIO
devices (R41, R51). -/

namespace Sys2Proof.Machine

/-- Every named parameter at its default (R6). DESIGN CHOICE, the spec's own decisions: log entries 3 (PUSH_FIELD), 4
(NOT_FORM), 5 (ST_IND_ROLES), 9 (SP_UPDATE_SIDE_EFFECTS), 10 (CYCLE_COSTS), 11 (MMIO_READ_DEFAULT), 12 (FETCH_ROUTED)
and 16 (RESET_CLEARS_MEMORY); each is unsafe. -/
def params : Config.Parameters where
  pushField := .rd
  notForm := .twoOperand
  stIndRoles := .dataRdAddrRs
  spUpdateSideEffects := false
  cycleCosts := { fetch := 1, regWrite := 1, memWrite := 1, mmioWritesCount := true }
  mmioReadDefault := 0x0000
  fetchRouted := true
  resetClearsMemory := false

/-- The first address of the MMIO window 0xFF00..0xFFFF (R41, R44). -/
def mmioBase : Word := 0xFF00

/-- Character output (R52). -/
def charOutAddr : Word := 0xFF00

/-- String output trigger (R53). -/
def stringOutAddr : Word := 0xFF10

/-- Decimal output (R54). -/
def decimalOutAddr : Word := 0xFF12

/-- Cycle counter, low 16 bits, read only (R55, R56). -/
def cycleCounterAddr : Word := 0xFF20

end Sys2Proof.Machine
end

