-- ==== Sys2Proof/Syntax.lean ====
section
/-! DEFINITION. The instruction set: the eight registers (R20), the 30 opcodes (R75) and one constructor of `Instr` for each
row of spec/opcode_table.json. -/

namespace Sys2Proof

/-- The eight general registers (R20); `r7` is the stack pointer (R21). -/
inductive Reg where
  | r0 | r1 | r2 | r3 | r4 | r5 | r6 | r7
  deriving DecidableEq, Repr

/-- The 30 defined opcodes, in the order of the source's list (R75). -/
inductive Opcode where
  | nop | mov | add | sub | and | or | xor | not | shl | shr | cmp | push | pop | ldAbs | stAbs | ldi
  | jmp | jz | jnz | jc | jn | call | ret | halt | ldInd | stInd | lea | addi | subi | mul
  deriving DecidableEq, Repr

/-- One instruction with its operands (R81). The last two constructors are the table's two undefined opcode values (R79,
R201): they carry the whole first word, because the fault report records it. -/
inductive Instr where
  /-- NOP (R190) -/
  | nop
  /-- MOV rd, rs (R130) -/
  | mov (rd rs : Reg)
  /-- ADD rd, rs (R140) -/
  | add (rd rs : Reg)
  /-- SUB rd, rs (R141) -/
  | sub (rd rs : Reg)
  /-- AND rd, rs (R150) -/
  | and (rd rs : Reg)
  /-- OR rd, rs (R151) -/
  | or (rd rs : Reg)
  /-- XOR rd, rs (R152) -/
  | xor (rd rs : Reg)
  /-- NOT rd, rs (R153) -/
  | not (rd rs : Reg)
  /-- SHL rd, rs (R154) -/
  | shl (rd rs : Reg)
  /-- SHR rd, rs (R155) -/
  | shr (rd rs : Reg)
  /-- CMP rd, rs (R145) -/
  | cmp (rd rs : Reg)
  /-- PUSH of the one register operand (R160) -/
  | push (r : Reg)
  /-- POP rd (R161) -/
  | pop (rd : Reg)
  /-- LD rd, [addr] (R170) -/
  | ldAbs (rd : Reg) (addr : Word)
  /-- ST rd, [addr] (R171) -/
  | stAbs (rd : Reg) (addr : Word)
  /-- LDI rd, imm (R131) -/
  | ldi (rd : Reg) (imm : Word)
  /-- JMP addr (R181) -/
  | jmp (addr : Word)
  /-- JZ addr (R182) -/
  | jz (addr : Word)
  /-- JNZ addr (R183) -/
  | jnz (addr : Word)
  /-- JC addr (R184) -/
  | jc (addr : Word)
  /-- JN addr (R185) -/
  | jn (addr : Word)
  /-- CALL addr (R186) -/
  | call (addr : Word)
  /-- RET (R187) -/
  | ret
  /-- HALT (R191) -/
  | halt
  /-- LD rd, [rs] (R172) -/
  | ldInd (rd rs : Reg)
  /-- ST rd, [rs] (R173) -/
  | stInd (rd rs : Reg)
  /-- LEA rd, addr (R132) -/
  | lea (rd : Reg) (addr : Word)
  /-- ADDI rd, imm (R142) -/
  | addi (rd : Reg) (imm : Word)
  /-- SUBI rd, imm (R143) -/
  | subi (rd : Reg) (imm : Word)
  /-- MUL rd, rs (R144) -/
  | mul (rd rs : Reg)
  /-- a first word with opcode field 30 (R201); `w` is that word -/
  | undefined30 (w : Word)
  /-- a first word with opcode field 31 (R201); `w` is that word -/
  | undefined31 (w : Word)
  deriving DecidableEq, Repr

end Sys2Proof
end

