-- ==== Sys2Proof/WellFormed.lean ====
section
/-! DEFINITION. Which instruction terms stand for words a core can fetch. Registers and immediates are exact by their types
(R79: "every register field value names a register and every second word is a legal immediate"), so the two undefined
opcode rows are all there is to check. -/

namespace Sys2Proof

/-- An instruction term is well formed when the word an undefined-opcode term carries has the opcode field it claims, bits
15..11 (R73, R79). -/
def WellFormed : Instr → Bool
  | .undefined30 w => w.toNat / 2048 == 30
  | .undefined31 w => w.toNat / 2048 == 31
  | .nop => true
  | .mov _ _ => true
  | .add _ _ => true
  | .sub _ _ => true
  | .and _ _ => true
  | .or _ _ => true
  | .xor _ _ => true
  | .not _ _ => true
  | .shl _ _ => true
  | .shr _ _ => true
  | .cmp _ _ => true
  | .push _ => true
  | .pop _ => true
  | .ldAbs _ _ => true
  | .stAbs _ _ => true
  | .ldi _ _ => true
  | .jmp _ => true
  | .jz _ => true
  | .jnz _ => true
  | .jc _ => true
  | .jn _ => true
  | .call _ => true
  | .ret => true
  | .halt => true
  | .ldInd _ _ => true
  | .stInd _ _ => true
  | .lea _ _ => true
  | .addi _ _ => true
  | .subi _ _ => true
  | .mul _ _ => true

end Sys2Proof
end

