-- ==== Sys2Proof/Decode.lean ====
section
/-! DEFINITION. The decoder (R70 to R79, R104) and, after it, the encoder (R80, R81). Everything that reads or writes the
bits of an instruction stands here. -/

namespace Sys2Proof

/-- `OPCODE_MAP` at its default: the position of the name in the source's list (R75). DESIGN CHOICE, the spec's decision D1,
log entry 1, unsafe. -/
def opcodeMap : Opcode → BitVec 5
  | .nop => 0
  | .mov => 1
  | .add => 2
  | .sub => 3
  | .and => 4
  | .or => 5
  | .xor => 6
  | .not => 7
  | .shl => 8
  | .shr => 9
  | .cmp => 10
  | .push => 11
  | .pop => 12
  | .ldAbs => 13
  | .stAbs => 14
  | .ldi => 15
  | .jmp => 16
  | .jz => 17
  | .jnz => 18
  | .jc => 19
  | .jn => 20
  | .call => 21
  | .ret => 22
  | .halt => 23
  | .ldInd => 24
  | .stInd => 25
  | .lea => 26
  | .addi => 27
  | .subi => 28
  | .mul => 29

/-- The defined opcodes, each once. -/
def definedOpcodes : List Opcode :=
  [.nop, .mov, .add, .sub, .and, .or, .xor, .not, .shl, .shr, .cmp, .push, .pop, .ldAbs, .stAbs, .ldi,
   .jmp, .jz, .jnz, .jc, .jn, .call, .ret, .halt, .ldInd, .stInd, .lea, .addi, .subi, .mul]

/-- The operation an opcode value selects; none for a value outside the defined ones (R79, R104). -/
def opcodeAt (n : BitVec 5) : Option Opcode :=
  definedOpcodes.find? (fun op => opcodeMap op == n)

/-- The twelve two-word opcodes (R77). -/
def isTwoWord : Opcode → Bool
  | .ldi | .lea | .addi | .subi | .ldAbs | .stAbs | .jmp | .jz | .jnz | .jc | .jn | .call => true
  | .nop | .mov | .add | .sub | .and | .or | .xor | .not | .shl | .shr | .cmp | .push | .pop | .ret | .halt
  | .ldInd | .stInd | .mul => false

/-- The opcode field, bits 15..11 of the first word (R73). -/
def opcodeField (w : Word) : BitVec 5 := w.extractLsb' 11 5

/-- The rd field, bits 10..8 of the first word (R73). -/
def rdField (w : Word) : BitVec 3 := w.extractLsb' 8 3

/-- The rs field, bits 7..5 of the first word (R73). -/
def rsField (w : Word) : BitVec 3 := w.extractLsb' 5 3

/-- The register a 3-bit field names (R20): every value names one. -/
def regOfField (n : BitVec 3) : Reg :=
  match n.toNat with
  | 0 => .r0
  | 1 => .r1
  | 2 => .r2
  | 3 => .r3
  | 4 => .r4
  | 5 => .r5
  | 6 => .r6
  | _ => .r7

/-- The number of a register (R20). -/
def regNumber : Reg → Nat
  | .r0 => 0
  | .r1 => 1
  | .r2 => 2
  | .r3 => 3
  | .r4 => 4
  | .r5 => 5
  | .r6 => 6
  | .r7 => 7

/-- Whether the decoder asks for one more word after the first word `w`: the opcode alone decides (R76). A first word with an
undefined opcode takes none (R201). -/
def needsSecondWord (w : Word) : Bool :=
  match opcodeAt (opcodeField w) with
  | some op => isTwoWord op
  | none => false

/-- The instruction the first word `w` and, for a two-word opcode, the second word `imm` stand for (R73, R74, R81). A
one-word opcode does not look at `imm`. Bits 4..0 and the fields marked unused in R81 are not examined (R78; DESIGN
CHOICE, the spec's decision D2, log entry 2, unsafe). -/
def decodeWords (w imm : Word) : Instr :=
  let rd := regOfField (rdField w)
  let rs := regOfField (rsField w)
  match opcodeAt (opcodeField w) with
  | some .nop => .nop
  | some .mov => .mov rd rs
  | some .add => .add rd rs
  | some .sub => .sub rd rs
  | some .and => .and rd rs
  | some .or => .or rd rs
  | some .xor => .xor rd rs
  | some .not => .not rd rs
  | some .shl => .shl rd rs
  | some .shr => .shr rd rs
  | some .cmp => .cmp rd rs
  | some .push =>
    match Machine.params.pushField with
    | .rd => .push rd
    | .rs => .push rs
  | some .pop => .pop rd
  | some .ldAbs => .ldAbs rd imm
  | some .stAbs => .stAbs rd imm
  | some .ldi => .ldi rd imm
  | some .jmp => .jmp imm
  | some .jz => .jz imm
  | some .jnz => .jnz imm
  | some .jc => .jc imm
  | some .jn => .jn imm
  | some .call => .call imm
  | some .ret => .ret
  | some .halt => .halt
  | some .ldInd => .ldInd rd rs
  | some .stInd => .stInd rd rs
  | some .lea => .lea rd imm
  | some .addi => .addi rd imm
  | some .subi => .subi rd imm
  | some .mul => .mul rd rs
  | none => if opcodeField w = 30#5 then .undefined30 w else .undefined31 w

/-- Why a sequence of words or bytes is not the beginning of an instruction stream. -/
inductive DecodeError where
  /-- there is no word to read -/
  | noWord
  /-- the first word's opcode takes a second word (R77) and there is none -/
  | noSecondWord
  deriving DecidableEq, Repr

/-- Decode the first instruction of a sequence of words and give back the rest. -/
def decode : List Word → Except DecodeError (Instr × List Word)
  | [] => .error .noWord
  | w :: rest =>
    if needsSecondWord w then
      match rest with
      | [] => .error .noSecondWord
      | imm :: rest' => .ok (decodeWords w imm, rest')
    else .ok (decodeWords w 0#16, rest)

/-- The words of a byte stream, low byte first (R97). An odd last byte is the low byte of a final word whose high byte is 0
(DESIGN CHOICE, the spec's decision D26 and conflict C4, log entry 26, unsafe). -/
def wordsOfBytes : List Byte → List Word
  | [] => []
  | [lo] => [BitVec.ofNat 16 lo.toNat]
  | lo :: hi :: rest => BitVec.ofNat 16 (lo.toNat + 256 * hi.toNat) :: wordsOfBytes rest

/-- The bytes of a sequence of words, low byte first (R97). -/
def bytesOfWords : List Word → List Byte
  | [] => []
  | w :: rest => BitVec.ofNat 8 w.toNat :: BitVec.ofNat 8 (w.toNat / 256) :: bytesOfWords rest

/-- The decoder on any bytes: the first instruction of an image (R97). -/
def decodeBytes (bytes : List Byte) : Except DecodeError (Instr × List Word) :=
  decode (wordsOfBytes bytes)

/-! ## The encoder -/

/-- The opcode of an instruction; none for the two undefined rows. -/
def opcodeOf : Instr → Option Opcode
  | .nop => some .nop
  | .mov _ _ => some .mov
  | .add _ _ => some .add
  | .sub _ _ => some .sub
  | .and _ _ => some .and
  | .or _ _ => some .or
  | .xor _ _ => some .xor
  | .not _ _ => some .not
  | .shl _ _ => some .shl
  | .shr _ _ => some .shr
  | .cmp _ _ => some .cmp
  | .push _ => some .push
  | .pop _ => some .pop
  | .ldAbs _ _ => some .ldAbs
  | .stAbs _ _ => some .stAbs
  | .ldi _ _ => some .ldi
  | .jmp _ => some .jmp
  | .jz _ => some .jz
  | .jnz _ => some .jnz
  | .jc _ => some .jc
  | .jn _ => some .jn
  | .call _ => some .call
  | .ret => some .ret
  | .halt => some .halt
  | .ldInd _ _ => some .ldInd
  | .stInd _ _ => some .stInd
  | .lea _ _ => some .lea
  | .addi _ _ => some .addi
  | .subi _ _ => some .subi
  | .mul _ _ => some .mul
  | .undefined30 _ => none
  | .undefined31 _ => none

/-- The first word with the given opcode and register numbers, unused bits 0 (R80). -/
def firstWord (op : Opcode) (rd rs : Nat) : Word :=
  BitVec.ofNat 16 ((opcodeMap op).toNat * 2048 + rd * 256 + rs * 32)

/-- `EncodeR` of R80. -/
def encodeR (op : Opcode) (rd rs : Nat) : List Word := [firstWord op rd rs]

/-- `EncodeI` of R80. -/
def encodeI (op : Opcode) (rd : Nat) (imm : Word) : List Word := [firstWord op rd 0, imm]

/-- `EncodeJ` of R80. -/
def encodeJ (op : Opcode) (addr : Word) : List Word := [firstWord op 0 0, addr]

/-- The words of an instruction (R80, R81). -/
def encode : Instr → List Word
  | .nop => encodeR .nop 0 0
  | .mov rd rs => encodeR .mov (regNumber rd) (regNumber rs)
  | .add rd rs => encodeR .add (regNumber rd) (regNumber rs)
  | .sub rd rs => encodeR .sub (regNumber rd) (regNumber rs)
  | .and rd rs => encodeR .and (regNumber rd) (regNumber rs)
  | .or rd rs => encodeR .or (regNumber rd) (regNumber rs)
  | .xor rd rs => encodeR .xor (regNumber rd) (regNumber rs)
  | .not rd rs => encodeR .not (regNumber rd) (regNumber rs)
  | .shl rd rs => encodeR .shl (regNumber rd) (regNumber rs)
  | .shr rd rs => encodeR .shr (regNumber rd) (regNumber rs)
  | .cmp rd rs => encodeR .cmp (regNumber rd) (regNumber rs)
  | .push r =>
    match Machine.params.pushField with
    | .rd => encodeR .push (regNumber r) 0
    | .rs => encodeR .push 0 (regNumber r)
  | .pop rd => encodeR .pop (regNumber rd) 0
  | .ldAbs rd addr => encodeI .ldAbs (regNumber rd) addr
  | .stAbs rd addr => encodeI .stAbs (regNumber rd) addr
  | .ldi rd imm => encodeI .ldi (regNumber rd) imm
  | .jmp addr => encodeJ .jmp addr
  | .jz addr => encodeJ .jz addr
  | .jnz addr => encodeJ .jnz addr
  | .jc addr => encodeJ .jc addr
  | .jn addr => encodeJ .jn addr
  | .call addr => encodeJ .call addr
  | .ret => encodeR .ret 0 0
  | .halt => encodeR .halt 0 0
  | .ldInd rd rs => encodeR .ldInd (regNumber rd) (regNumber rs)
  | .stInd rd rs => encodeR .stInd (regNumber rd) (regNumber rs)
  | .lea rd addr => encodeI .lea (regNumber rd) addr
  | .addi rd imm => encodeI .addi (regNumber rd) imm
  | .subi rd imm => encodeI .subi (regNumber rd) imm
  | .mul rd rs => encodeR .mul (regNumber rd) (regNumber rs)
  | .undefined30 w => [w]
  | .undefined31 w => [w]

/-- How many words an instruction occupies (R77). -/
def wordCount (i : Instr) : Nat := (encode i).length

/-- The instruction the decoder reads from an opcode-table row's bits `w`: the first word is bits 15..0, the second bits
31..16, every bit at or above `nbits` is 0. -/
def decodeTableWord (nbits w : Nat) : Option Instr :=
  let v := w % 2 ^ nbits
  match decode [BitVec.ofNat 16 v, BitVec.ofNat 16 (v / 65536)] with
  | .ok (i, _) => some i
  | .error _ => none

end Sys2Proof
end

