-- ==== Sys2Proof/Machine/State.lean ====
section
/-! DEFINITION. The state of the core (R20 to R35), the ways a step can stop, and the state after power-on and reset. -/

namespace Sys2Proof.Machine

/-- The general registers (R20); `r7` is the stack pointer (R21). -/
structure Regs where
  r0 : Word
  r1 : Word
  r2 : Word
  r3 : Word
  r4 : Word
  r5 : Word
  r6 : Word
  r7 : Word
  deriving DecidableEq, Repr

/-- The four flags Zero, Negative, Carry, Overflow (R25). -/
structure Flags where
  z : Bool
  n : Bool
  c : Bool
  v : Bool
  deriving DecidableEq, Repr

/-- The memory array `mem[0..65535]` (R31, R40) as sparse bytes: word `a` is the bytes at 2a (low) and 2a + 1 (high), and a
byte that is not listed is 0 (R231). The byte layout cannot be seen inside the core (R42): log entry 31. -/
abbrev Memory := List Host.Cell

/-- How many bytes hold the 65536 words of the array. -/
def memoryBytes : Nat := 131072

/-- The one canonical form of a memory: addresses strictly rising, no byte equal to what an unlisted one reads as, and no
address outside the array. -/
abbrev Memory.wf (m : Memory) : Prop :=
  m.Pairwise (fun c d => c.1 < d.1) ∧ ∀ c ∈ m, c.2 ≠ 0#8 ∧ c.1 < memoryBytes

/-- The kinds of exception the hardware raises: one (R200, R202). -/
inductive ExceptionKind where
  | fatalOpcode
  deriving DecidableEq, Repr

/-- One entry of `Report`: (FatalOpcode, opcode, addr, w) of R201. -/
structure FaultReport where
  kind : ExceptionKind
  opcode : BitVec 5
  addr : Word
  word : Word
  deriving DecidableEq, Repr

/-- The whole state of the core, and the two output streams (R20 to R34). -/
structure State where
  /-- x[0]..x[7] (R20, R21) -/
  regs : Regs
  /-- the program counter, a word address (R23) -/
  pc : Word
  /-- Z, N, C, V (R25) -/
  flags : Flags
  /-- the halted flag: true is the state Halted (R27, R100) -/
  halted : Bool
  /-- the cycle counter (R28) -/
  cyc : BitVec 64
  /-- the memory array, the backing cells of the MMIO window included (R31, R40, R59) -/
  mem : Memory
  /-- the pending string request is set (R32) -/
  pendValid : Bool
  /-- the address of the pending string request (R32) -/
  pendAddr : Word
  /-- the console stream `Out`, oldest byte first (R33, R50) -/
  out : List Byte
  /-- the report list `Report`, oldest first (R33, R201, R204) -/
  report : List FaultReport
  deriving DecidableEq, Repr

/-- How the machine can stop without a next state. The exception FatalOpcode is not here: it is taken (R201). -/
inductive Fault where
  /-- Raised by the MMIO service step when a string print meets no zero word in the whole array: the scan never ends and the
  instruction never completes (R58, D27, U8). Safe: the hardware makes no further step either; log entry 27. -/
  | stringNeverEnds
  deriving DecidableEq, Repr

/-- What the model gives no meaning. -/
inductive Refusal where
  /-- Raised by an arm of `exec` whose instruction has no meaning yet; no arm does. Safe. -/
  | notModelled (mnemonic : String)
  /-- Raised by the host operation `load` when the image would run past the last address: "a load that would run past 0xFFFF
  is given no meaning and a model refuses it" (R235, U10). No instruction raises it. Safe; log entry 17. -/
  | loadPastEnd
  deriving DecidableEq, Repr

/-- The state after power-on, which is also the state after power-on and `reset()` (R35, R231): Running, all registers zero
but SP = 0xF000, pc = 0, flags clear, cycle counter 0, memory zero, nothing pending, both output streams empty. -/
def State.reset : State where
  regs := { r0 := 0, r1 := 0, r2 := 0, r3 := 0, r4 := 0, r5 := 0, r6 := 0, r7 := 0xF000 }
  pc := 0
  flags := { z := false, n := false, c := false, v := false }
  halted := false
  cyc := 0
  mem := []
  pendValid := false
  pendAddr := 0
  out := []
  report := []

end Sys2Proof.Machine
end

