-- ==== Sys2Proof/Machine/Flags.lean ====
section
/-! DEFINITION. The ALU (R110 to R116): each function gives a 16-bit result and the four flags, as the spec's pseudocode
computes them. -/

namespace Sys2Proof.Machine

/-- Zero of a 16-bit value (R105, R110 to R115). -/
def zeroFlag (r : Word) : Bool := r == 0#16

/-- Negative of a 16-bit value: bit 15 (R105, R110 to R115). -/
def negativeFlag (r : Word) : Bool := r.getLsbD 15

/-- A value zero-extended to 32 bits (R11). -/
def zext32 (w : Word) : BitVec 32 := w.setWidth 32

/-- The low half `t[15:0]` of a 32-bit intermediate. -/
def low16 (t : BitVec 32) : Word := t.extractLsb' 0 16

/-- The high half `t[31:16]` of a 32-bit intermediate. -/
def high16 (t : BitVec 32) : Word := t.extractLsb' 16 16

/-- What an ALU function answers: the result and all four flags. -/
structure AluResult where
  value : Word
  flags : Flags
  deriving DecidableEq, Repr

/-- `AluAdd` (R110), used by ADD and ADDI. -/
def aluAdd (a b : Word) : AluResult :=
  let t := zext32 a + zext32 b
  let r := low16 t
  { value := r
    flags :=
      { z := zeroFlag r
        n := negativeFlag r
        c := t.getLsbD 16
        v := a.getLsbD 15 == b.getLsbD 15 && r.getLsbD 15 != a.getLsbD 15 } }

/-- `AluSub` (R111), used by SUB, SUBI and CMP; `a` is the minuend and C is a borrow. -/
def aluSub (a b : Word) : AluResult :=
  let t := zext32 a - zext32 b
  let r := low16 t
  { value := r
    flags :=
      { z := zeroFlag r
        n := negativeFlag r
        c := t.getLsbD 16
        v := a.getLsbD 15 != b.getLsbD 15 && r.getLsbD 15 != a.getLsbD 15 } }

/-- `AluLogic` (R112), the flag rule of AND, OR, XOR and NOT on their result. -/
def aluLogic (r : Word) : AluResult :=
  { value := r
    flags := { z := zeroFlag r, n := negativeFlag r, c := false, v := false } }

/-- The shift amount `s[3:0]` (R113, R114). -/
def shiftAmount (s : Word) : Nat := (s.extractLsb' 0 4).toNat

/-- `AluShl` (R113): `c` is the Carry before, kept when the amount is 0 (conflict C3, decision D24, log entry 24). -/
def aluShl (a s : Word) (c : Bool) : AluResult :=
  let n := shiftAmount s
  let r := if n = 0 then a else a <<< n
  { value := r
    flags :=
      { z := zeroFlag r
        n := negativeFlag r
        c := if n = 0 then c else a.getLsbD (16 - n)
        v := false } }

/-- `AluShr` (R114), a logical right shift; `c` is the Carry before, kept when the amount is 0 (C3, D24, log entry 24). -/
def aluShr (a s : Word) (c : Bool) : AluResult :=
  let n := shiftAmount s
  let r := if n = 0 then a else a >>> n
  { value := r
    flags :=
      { z := zeroFlag r
        n := negativeFlag r
        c := if n = 0 then c else a.getLsbD (n - 1)
        v := false } }

/-- `AluMul` (R115): unsigned, the low half of the 32-bit product; C tells whether the high half is nonzero. -/
def aluMul (a b : Word) : AluResult :=
  let p := zext32 a * zext32 b
  let r := low16 p
  { value := r
    flags :=
      { z := zeroFlag r
        n := negativeFlag r
        c := high16 p != 0#16
        v := false } }

end Sys2Proof.Machine
end

