-- ==== Sys2Proof/Machine/Ops.lean ====
section
/-! DEFINITION. The named operations over the state: memory (R40, R44, R45), the MMIO devices (R51 to R58), the write
primitives (R105 to R107), taking the one exception (R201), fetching (R102) and the MMIO service step (R109). -/

namespace Sys2Proof.Machine

/-! ## The memory array -/

/-- The byte at one byte address; a byte that is not listed is 0 (R231). -/
def Memory.byteAt : Memory → Nat → Byte
  | [], _ => 0
  | cell :: rest, k => if cell.1 = k then cell.2 else Memory.byteAt rest k

/-- Set the byte at one byte address, keeping the canonical form. -/
def Memory.setByte : Memory → Nat → Byte → Memory
  | [], k, b => if b = 0#8 then [] else [(k, b)]
  | cell :: rest, k, b =>
    if cell.1 < k then cell :: Memory.setByte rest k b
    else if cell.1 = k then (if b = 0#8 then rest else (k, b) :: rest)
    else if b = 0#8 then cell :: rest
    else (k, b) :: cell :: rest

/-- `mem[a]`: the word in cell `a`, not routed (R40). -/
def Memory.read (m : Memory) (a : Word) : Word :=
  BitVec.ofNat 16 ((m.byteAt (2 * a.toNat)).toNat + 256 * (m.byteAt (2 * a.toNat + 1)).toNat)

/-- `mem[a] <- v`, not routed (R40). -/
def Memory.write (m : Memory) (a v : Word) : Memory :=
  (m.setByte (2 * a.toNat) (BitVec.ofNat 8 v.toNat)).setByte (2 * a.toNat + 1) (BitVec.ofNat 8 (v.toNat / 256))

/-! ## Plain updates of the state: one field (or the pending pair) each -/

/-- `x[i]` of a register file (R20). -/
def Regs.get (g : Regs) : Reg → Word
  | .r0 => g.r0
  | .r1 => g.r1
  | .r2 => g.r2
  | .r3 => g.r3
  | .r4 => g.r4
  | .r5 => g.r5
  | .r6 => g.r6
  | .r7 => g.r7

/-- A register file with one register replaced (R20). -/
def Regs.set (g : Regs) (r : Reg) (w : Word) : Regs :=
  match r with
  | .r0 => { g with r0 := w }
  | .r1 => { g with r1 := w }
  | .r2 => { g with r2 := w }
  | .r3 => { g with r3 := w }
  | .r4 => { g with r4 := w }
  | .r5 => { g with r5 := w }
  | .r6 => { g with r6 := w }
  | .r7 => { g with r7 := w }

/-- `x[i]`: reading a register has no side effect (R20). -/
def State.reg (s : State) (r : Reg) : Word := s.regs.get r

/-- The stack pointer, `x[7]` (R21). -/
def State.sp (s : State) : Word := s.reg .r7

/-- Replace one register and nothing else. -/
def State.setReg (s : State) (r : Reg) (w : Word) : State := { s with regs := s.regs.set r w }

/-- `pc <- target` (R107): no flag, no cycle. -/
def State.setPc (s : State) (target : Word) : State := { s with pc := target }

/-- Replace the four flags. -/
def State.setFlags (s : State) (f : Flags) : State := { s with flags := f }

/-- Add to the cycle counter, modulo 2^64 (R28). -/
def State.addCyc (s : State) (k : BitVec 64) : State := { s with cyc := s.cyc + k }

/-- Replace the memory array. -/
def State.setMem (s : State) (m : Memory) : State := { s with mem := m }

/-- `halted <- b` (R27). -/
def State.setHalted (s : State) (b : Bool) : State := { s with halted := b }

/-- Set the pending string request: `pend_valid <- 1; pend_addr <- a` (R53). -/
def State.requestString (s : State) (a : Word) : State := { s with pendValid := true, pendAddr := a }

/-- `pend_valid <- 0` (R109). -/
def State.clearRequest (s : State) : State := { s with pendValid := false }

/-- `Out <- Out ++ bytes` (R50). -/
def State.emit (s : State) (bytes : List Byte) : State := { s with out := s.out ++ bytes }

/-- `Report <- Report ++ [e]` (R201). -/
def State.addReport (s : State) (e : FaultReport) : State := { s with report := s.report ++ [e] }

/-! ## The MMIO devices -/

/-- Whether an address is in the MMIO window (R44, R45). -/
def isMmio (a : Word) : Bool := decide (mmioBase.toNat ≤ a.toNat)

/-- The low byte of a word, `v[7:0]` (R52, R58). -/
def lowByte (v : Word) : Byte := v.extractLsb' 0 8

/-- The ASCII byte of a decimal digit. PRESUMED (the spec marks the codes as general knowledge): log entry 14. -/
def digitByte (d : Nat) : Byte := BitVec.ofNat 8 (0x30 + d)

/-- The decimal digits of `n` before `acc`, most significant first, at most `fuel + 1` of them. -/
def decimalDigits : Nat → Nat → List Byte → List Byte
  | 0, n, acc => digitByte (n % 10) :: acc
  | fuel + 1, n, acc =>
    if n < 10 then digitByte n :: acc
    else decimalDigits fuel (n / 10) (digitByte (n % 10) :: acc)

/-- What 0xFF12 emits: the unsigned decimal digits of `v` and one line-break byte 0x0A (R54, D14, log entry 14). Five digits
hold every 16-bit value. -/
def decimalText (v : Word) : List Byte := decimalDigits 4 v.toNat [] ++ [0x0A]

/-- `MmioRead(addr)` (R51, R56, R57): the low 16 bits of the cycle counter at 0xFF20, the default elsewhere. -/
def mmioRead (s : State) (a : Word) : Word :=
  if a = cycleCounterAddr then s.cyc.extractLsb' 0 16 else params.mmioReadDefault

/-- `MmioWrite(addr, v)` (R51 to R55, R57). -/
def mmioWrite (s : State) (a v : Word) : State :=
  if a = charOutAddr then s.emit [lowByte v]
  else if a = stringOutAddr then s.requestString v
  else if a = decimalOutAddr then s.emit (decimalText v)
  else s

/-- `MemRead(addr, 1)`, the routed read (R44). -/
def memRead (s : State) (a : Word) : Word :=
  if isMmio a then mmioRead s a else s.mem.read a

/-- What one routed write adds to the cycle counter (R45, CYCLE_COSTS). -/
def memWriteCost (a : Word) : BitVec 64 :=
  if isMmio a && !params.cycleCosts.mmioWritesCount then 0 else params.cycleCosts.memWrite

/-- `MemWrite(addr, 1, v)`, the routed write (R45). -/
def memWrite (s : State) (a v : Word) : State :=
  let s1 := s.addCyc (memWriteCost a)
  if isMmio a then mmioWrite s1 a v else s1.setMem (s1.mem.write a v)

/-! ## The write primitives -/

/-- `x[i] <- v`, the architectural register write (R105): the register, Z, N and the cycle counter; C and V stay. -/
def writeReg (s : State) (r : Reg) (w : Word) : State :=
  ((s.setReg r w).setFlags { s.flags with z := zeroFlag w, n := negativeFlag w }).addCyc params.cycleCosts.regWrite

/-- `SP <-raw v` (R106): register 7 alone, unless SP_UPDATE_SIDE_EFFECTS makes it a register write (D9, log entry 9). -/
def writeSpRaw (s : State) (w : Word) : State :=
  if params.spUpdateSideEffects then writeReg s .r7 w else s.setReg .r7 w

/-- Write an ALU result: all four flags, then the destination by the register write (R110 to R115). -/
def writeAlu (s : State) (r : Reg) (x : AluResult) : State := writeReg (s.setFlags x.flags) r x.value

/-- Push a word: decrement SP, then write at the new SP the value `v` computes from the state after the decrement (R65,
R160, R186). -/
def pushWord (s : State) (v : State → Word) : State :=
  let s1 := writeSpRaw s (s.sp - 1#16)
  memWrite s1 s1.sp (v s1)

/-! ## The exception -/

/-- `raise FatalOpcode` for the fetched first word `w` (R201): a report with the opcode field, the address the word was
fetched from and the word; `halted <- 1`. The fetch has already advanced `pc`, and nothing puts it back. No register is
saved, there is no handler and no return (R208, R209). -/
def raiseFatalOpcode (s : State) (w : Word) : State :=
  (s.addReport { kind := .fatalOpcode, opcode := opcodeField w, addr := s.pc - 1#16, word := w }).setHalted true

/-! ## Fetch and the MMIO service step -/

/-- The word a fetch reads: routed by default (R47, R48, FETCH_ROUTED). -/
def fetchedWord (s : State) : Word :=
  if params.fetchRouted then memRead s s.pc else s.mem.read s.pc

/-- The state after one `Fetch()`: pc + 1 modulo 65536 and the cycle counter (R102, R24). -/
def afterFetch (s : State) : State := (s.setPc (s.pc + 1#16)).addCyc params.cycleCosts.fetch

/-- Fetch and decode one instruction (phases 1 and 2 of R103, with the second-word fetch of R76): the instruction and the
state the execute phase starts from. -/
def fetchInstr (s : State) : Instr × State :=
  let w := fetchedWord s
  let s1 := afterFetch s
  if needsSecondWord w then (decodeWords w (fetchedWord s1), afterFetch s1) else (decodeWords w 0#16, s1)

/-- The bytes of the string that starts at `a` (R58), looking at no more than `fuel` words; none when no zero word is among
them. -/
def stringScan (m : Memory) : Nat → Word → Option (List Byte)
  | 0, _ => none
  | fuel + 1, a =>
    if m.read a = 0#16 then some [] else (stringScan m fuel (a + 1#16)).map (fun rest => lowByte (m.read a) :: rest)

/-- `StringEmit(a0)` (R58): what the scan emits; none when it never ends. The scan address wraps modulo 65536, so a scan that
has seen 65536 words has seen them all: it ends there or never. -/
def stringEmit (m : Memory) (a0 : Word) : Option (List Byte) := stringScan m 65536 a0

/-- `ServiceMmio()` (R109). A scan that never ends leaves no next state (D27, U8, log entry 27). -/
def serviceMmio (s : State) : Host.Outcome State Fault Refusal :=
  if s.pendValid then
    match stringEmit s.mem s.pendAddr with
    | some bytes => .next (s.emit bytes).clearRequest
    | none => .fault .stringNeverEnds
  else .next s

/-- Phase 4 of R103 after phase 3. It runs after every instruction, one that halts or faults included: nothing can be pending
then (R103). -/
def thenService : Host.Outcome State Fault Refusal → Host.Outcome State Fault Refusal
  | .next s => serviceMmio s
  | .fault f => .fault f
  | .refused r => .refused r

end Sys2Proof.Machine
end

