-- ==== Sys2Proof/Machine/Operands.lean ====
section
/-! DEFINITION. The operand forms (R81, R174): a register's value, the second word, and the two addressing modes. -/

namespace Sys2Proof.Machine

/-- The value of a register operand: the register's value in the state (R20, R108). -/
def regOperand (s : State) (r : Reg) : Word := s.reg r

/-- The value of an immediate operand: the second word, used as it is (R74). -/
def immOperand (imm : Word) : Word := imm

/-- The effective address of absolute addressing: the second word (R174). -/
def absoluteAddress (addr : Word) : Word := addr

/-- The effective address of register-indirect addressing: the value of the register (R174). -/
def indirectAddress (s : State) (r : Reg) : Word := s.reg r

/-- The target of a jump or call: the second word, an absolute address (R74, R180). -/
def targetAddress (addr : Word) : Word := addr

end Sys2Proof.Machine
end

