-- ==== Sys2Proof/Machine/Arithmetic.lean ====
section
/-! DEFINITION. ADD, SUB, ADDI, SUBI, MUL, CMP (42_arithmetic.md). -/

namespace Sys2Proof.Machine

/-- ADD rd, rs (R140). -/
def execAdd (rd rs : Reg) (s : State) : Host.Outcome State Fault Refusal :=
  .next (writeAlu s rd (aluAdd (regOperand s rd) (regOperand s rs)))

/-- SUB rd, rs (R141): rd is the minuend. -/
def execSub (rd rs : Reg) (s : State) : Host.Outcome State Fault Refusal :=
  .next (writeAlu s rd (aluSub (regOperand s rd) (regOperand s rs)))

/-- ADDI rd, imm (R142): all four flags, as ADD (D7, log entry 7). -/
def execAddi (rd : Reg) (imm : Word) (s : State) : Host.Outcome State Fault Refusal :=
  .next (writeAlu s rd (aluAdd (regOperand s rd) (immOperand imm)))

/-- SUBI rd, imm (R143): all four flags, as SUB (D7, log entry 7). -/
def execSubi (rd : Reg) (imm : Word) (s : State) : Host.Outcome State Fault Refusal :=
  .next (writeAlu s rd (aluSub (regOperand s rd) (immOperand imm)))

/-- MUL rd, rs (R144). -/
def execMul (rd rs : Reg) (s : State) : Host.Outcome State Fault Refusal :=
  .next (writeAlu s rd (aluMul (regOperand s rd) (regOperand s rs)))

/-- CMP rd, rs (R145): the flags of the subtraction, no register write. -/
def execCmp (rd rs : Reg) (s : State) : Host.Outcome State Fault Refusal :=
  .next (s.setFlags (aluSub (regOperand s rd) (regOperand s rs)).flags)

end Sys2Proof.Machine
end

