-- ==== Sys2Proof/Machine/Control.lean ====
section
/-! DEFINITION. JMP, JZ, JNZ, JC, JN, CALL, RET (46_control_transfer.md). `pc` on entry is the post-fetch pc (R180). -/

namespace Sys2Proof.Machine

/-- A jump taken when `taken` holds; otherwise `pc` stays at the post-fetch value (R180). -/
def jumpIf (taken : Bool) (addr : Word) (s : State) : State :=
  if taken then s.setPc (targetAddress addr) else s

/-- JMP addr (R181). -/
def execJmp (addr : Word) (s : State) : Host.Outcome State Fault Refusal :=
  .next (jumpIf true addr s)

/-- JZ addr (R182, D8, log entry 8). -/
def execJz (addr : Word) (s : State) : Host.Outcome State Fault Refusal :=
  .next (jumpIf s.flags.z addr s)

/-- JNZ addr (R183, D8, log entry 8). -/
def execJnz (addr : Word) (s : State) : Host.Outcome State Fault Refusal :=
  .next (jumpIf (!s.flags.z) addr s)

/-- JC addr (R184, D8, log entry 8). -/
def execJc (addr : Word) (s : State) : Host.Outcome State Fault Refusal :=
  .next (jumpIf s.flags.c addr s)

/-- JN addr (R185, D8, log entry 8). -/
def execJn (addr : Word) (s : State) : Host.Outcome State Fault Refusal :=
  .next (jumpIf s.flags.n addr s)

/-- CALL addr (R186): push the post-fetch pc, then jump. -/
def execCall (addr : Word) (s : State) : Host.Outcome State Fault Refusal :=
  .next ((pushWord s (fun s1 => s1.pc)).setPc (targetAddress addr))

/-- RET (R187): read the return address at SP, increment SP, jump there. -/
def execRet (s : State) : Host.Outcome State Fault Refusal :=
  .next ((writeSpRaw s (s.sp + 1#16)).setPc (memRead s s.sp))

end Sys2Proof.Machine
end

