-- ==== Sys2Proof/Machine/LoadStore.lean ====
section
/-! DEFINITION. LD_ABS, ST_ABS, LD_IND, ST_IND (45_load_store.md). -/

namespace Sys2Proof.Machine

/-- LD rd, [addr] (R170). -/
def execLdAbs (rd : Reg) (addr : Word) (s : State) : Host.Outcome State Fault Refusal :=
  .next (writeReg s rd (memRead s (absoluteAddress addr)))

/-- ST rd, [addr] (R171). -/
def execStAbs (rd : Reg) (addr : Word) (s : State) : Host.Outcome State Fault Refusal :=
  .next (memWrite s (absoluteAddress addr) (regOperand s rd))

/-- LD rd, [rs] (R172). -/
def execLdInd (rd rs : Reg) (s : State) : Host.Outcome State Fault Refusal :=
  .next (writeReg s rd (memRead s (indirectAddress s rs)))

/-- The register ST_IND takes its address from (R173, ST_IND_ROLES). -/
def stIndAddressReg (rd rs : Reg) : Reg :=
  match params.stIndRoles with
  | .dataRdAddrRs => rs
  | .addrRdDataRs => rd

/-- The register ST_IND takes its data from (R173, ST_IND_ROLES). -/
def stIndDataReg (rd rs : Reg) : Reg :=
  match params.stIndRoles with
  | .dataRdAddrRs => rd
  | .addrRdDataRs => rs

/-- ST rd, [rs] (R173). -/
def execStInd (rd rs : Reg) (s : State) : Host.Outcome State Fault Refusal :=
  .next (memWrite s (indirectAddress s (stIndAddressReg rd rs)) (regOperand s (stIndDataReg rd rs)))

end Sys2Proof.Machine
end

