-- ==== Sys2Proof/Machine/Logic.lean ====
section
/-! DEFINITION. AND, OR, XOR, NOT, SHL, SHR (43_logic_shift.md). -/

namespace Sys2Proof.Machine

/-- AND rd, rs (R150). -/
def execAnd (rd rs : Reg) (s : State) : Host.Outcome State Fault Refusal :=
  .next (writeAlu s rd (aluLogic (regOperand s rd &&& regOperand s rs)))

/-- OR rd, rs (R151). -/
def execOr (rd rs : Reg) (s : State) : Host.Outcome State Fault Refusal :=
  .next (writeAlu s rd (aluLogic (regOperand s rd ||| regOperand s rs)))

/-- XOR rd, rs (R152). -/
def execXor (rd rs : Reg) (s : State) : Host.Outcome State Fault Refusal :=
  .next (writeAlu s rd (aluLogic (regOperand s rd ^^^ regOperand s rs)))

/-- The register NOT complements: `rs` in the two-operand form, `rd` in the one-operand form (R153, NOT_FORM). -/
def notSource (rd rs : Reg) : Reg :=
  match params.notForm with
  | .twoOperand => rs
  | .oneOperand => rd

/-- NOT rd, rs (R153). -/
def execNot (rd rs : Reg) (s : State) : Host.Outcome State Fault Refusal :=
  .next (writeAlu s rd (aluLogic (~~~ (regOperand s (notSource rd rs)))))

/-- SHL rd, rs (R154): the amount is the low 4 bits of the value of rs. -/
def execShl (rd rs : Reg) (s : State) : Host.Outcome State Fault Refusal :=
  .next (writeAlu s rd (aluShl (regOperand s rd) (regOperand s rs) s.flags.c))

/-- SHR rd, rs (R155). -/
def execShr (rd rs : Reg) (s : State) : Host.Outcome State Fault Refusal :=
  .next (writeAlu s rd (aluShr (regOperand s rd) (regOperand s rs) s.flags.c))

end Sys2Proof.Machine
end

