-- ==== Sys2Proof/Machine/Moves.lean ====
section
/-! DEFINITION. MOV, LDI, LEA (41_moves.md). A meaning runs from the state after the instruction's fetches (R103). -/

namespace Sys2Proof.Machine

/-- MOV rd, rs (R130). -/
def execMov (rd rs : Reg) (s : State) : Host.Outcome State Fault Refusal :=
  .next (writeReg s rd (regOperand s rs))

/-- LDI rd, imm (R131). -/
def execLdi (rd : Reg) (imm : Word) (s : State) : Host.Outcome State Fault Refusal :=
  .next (writeReg s rd (immOperand imm))

/-- LEA rd, addr (R132): the address itself, no memory access (D6, C6, log entry 6). -/
def execLea (rd : Reg) (addr : Word) (s : State) : Host.Outcome State Fault Refusal :=
  .next (writeReg s rd (absoluteAddress addr))

end Sys2Proof.Machine
end

