-- ==== Sys2Proof/Machine/Stack.lean ====
section
/-! DEFINITION. PUSH and POP (44_stack.md). -/

namespace Sys2Proof.Machine

/-- PUSH r (R160): decrement SP, then write; the register is read after the decrement (D13, log entry 13). -/
def execPush (r : Reg) (s : State) : Host.Outcome State Fault Refusal :=
  .next (pushWord s (fun s1 => regOperand s1 r))

/-- POP rd (R161): read, write the register, then increment SP; for rd = r7 the increment is of the popped value (D13, log
entry 13). -/
def execPop (rd : Reg) (s : State) : Host.Outcome State Fault Refusal :=
  let s1 := writeReg s rd (memRead s s.sp)
  .next (writeSpRaw s1 (s1.sp + 1#16))

end Sys2Proof.Machine
end

