-- ==== Sys2Proof/Machine/System.lean ====
section
/-! DEFINITION. NOP, HALT (47_system.md) and the two undefined opcode values (60_exceptions.md). -/

namespace Sys2Proof.Machine

/-- NOP (R190): nothing after its fetch (D29, log entry 29). -/
def execNop (s : State) : Host.Outcome State Fault Refusal :=
  .next s

/-- HALT (R191): a normal end, nothing is reported. -/
def execHalt (s : State) : Host.Outcome State Fault Refusal :=
  .next (s.setHalted true)

/-- A first word with opcode field 30 (R201): take the exception FatalOpcode. -/
def execUndefined30 (w : Word) (s : State) : Host.Outcome State Fault Refusal :=
  .next (raiseFatalOpcode s w)

/-- A first word with opcode field 31 (R201): take the exception FatalOpcode. -/
def execUndefined31 (w : Word) (s : State) : Host.Outcome State Fault Refusal :=
  .next (raiseFatalOpcode s w)

end Sys2Proof.Machine
end

