-- ==== Sys2Proof/Machine/Dispatch.lean ====
section
/-! DEFINITION. The execute phase: one arm per instruction (R103, R104). The state `s` is the state after the instruction's
fetches. -/

namespace Sys2Proof.Machine

def exec (i : Instr) (s : State) : Host.Outcome State Fault Refusal :=
  match i with
  | .nop => Sys2Proof.Machine.execNop s
  | .mov rd rs => Sys2Proof.Machine.execMov rd rs s
  | .add rd rs => Sys2Proof.Machine.execAdd rd rs s
  | .sub rd rs => Sys2Proof.Machine.execSub rd rs s
  | .and rd rs => Sys2Proof.Machine.execAnd rd rs s
  | .or rd rs => Sys2Proof.Machine.execOr rd rs s
  | .xor rd rs => Sys2Proof.Machine.execXor rd rs s
  | .not rd rs => Sys2Proof.Machine.execNot rd rs s
  | .shl rd rs => Sys2Proof.Machine.execShl rd rs s
  | .shr rd rs => Sys2Proof.Machine.execShr rd rs s
  | .cmp rd rs => Sys2Proof.Machine.execCmp rd rs s
  | .push r => Sys2Proof.Machine.execPush r s
  | .pop rd => Sys2Proof.Machine.execPop rd s
  | .ldAbs rd addr => Sys2Proof.Machine.execLdAbs rd addr s
  | .stAbs rd addr => Sys2Proof.Machine.execStAbs rd addr s
  | .ldi rd imm => Sys2Proof.Machine.execLdi rd imm s
  | .jmp addr => Sys2Proof.Machine.execJmp addr s
  | .jz addr => Sys2Proof.Machine.execJz addr s
  | .jnz addr => Sys2Proof.Machine.execJnz addr s
  | .jc addr => Sys2Proof.Machine.execJc addr s
  | .jn addr => Sys2Proof.Machine.execJn addr s
  | .call addr => Sys2Proof.Machine.execCall addr s
  | .ret => Sys2Proof.Machine.execRet s
  | .halt => Sys2Proof.Machine.execHalt s
  | .ldInd rd rs => Sys2Proof.Machine.execLdInd rd rs s
  | .stInd rd rs => Sys2Proof.Machine.execStInd rd rs s
  | .lea rd addr => Sys2Proof.Machine.execLea rd addr s
  | .addi rd imm => Sys2Proof.Machine.execAddi rd imm s
  | .subi rd imm => Sys2Proof.Machine.execSubi rd imm s
  | .mul rd rs => Sys2Proof.Machine.execMul rd rs s
  | .undefined30 w => Sys2Proof.Machine.execUndefined30 w s
  | .undefined31 w => Sys2Proof.Machine.execUndefined31 w s

end Sys2Proof.Machine
end

