-- ==== Sys2Proof/Machine/Step.lean ====
section
/-! DEFINITION. One instruction cycle (R103) and the placing of one instruction where the next step fetches it. -/

namespace Sys2Proof.Machine

/-- One step: nothing changes in the state Halted (R120); in the state Running, fetch, decode, execute, MMIO service
(R103). -/
def step (s : State) : Host.Outcome State Fault Refusal :=
  if s.halted then .next s
  else thenService (exec (fetchInstr s).1 (fetchInstr s).2)

/-- The state with the instruction of an opcode-table row (its words: bits 15..0, then bits 31..16, every bit at or above
`nbits` 0) stored at `pc` and `pc + 1`, where the next step fetches it, and Running. Where the two words at `pc` are not both
plain storage (a fetch in the MMIO window never reads the array, R48), `pc` is 0x0000 first. Log entry 34. -/
def State.withFetchWord (s : State) (nbits w : Nat) : State :=
  let v := w % 2 ^ nbits
  let at_ : Word := if s.pc.toNat + 1 < mmioBase.toNat then s.pc else 0
  let m := (s.mem.write at_ (BitVec.ofNat 16 v)).write (at_ + 1#16) (BitVec.ofNat 16 (v / 65536))
  ((s.setPc at_).setMem m).setHalted false

end Sys2Proof.Machine
end

