-- ==== Sys2Proof/Machine/Assembler.lean ====
section
/-! DEFINITION. The toolchain contract (R4, R85 to R96): what words a source text becomes. The assembler is software; nothing
of the machine depends on this file. Its choices where the rules are silent are log entries 22, 36 (the text of a line) and 38
(labels in `.org`). -/

namespace Sys2Proof.Machine.Assembler

/-- The reasons an assembly fails (R96), and the model's own for what the rules leave open (log entry 36). -/
inductive AsmError where
  /-- `.org` without exactly one operand that is a literal or a label (R87, R90, R96) -/
  | badOrg
  /-- `.word` with an empty operand list, or with an operand that is no value (R87, R96) -/
  | badWordList
  /-- a malformed or unterminated `.asciiz` string (R87, R96) -/
  | badString
  /-- wrong operand count or kind (R91, R96) -/
  | badOperands
  /-- a reference to a label that is never defined (R94, R96), or, in `.org`, not defined above it (log entry 38) -/
  | undefinedLabel
  /-- an unrecognised mnemonic or directive (R96); a label that shares its line with an instruction ends here too (log
  entry 36) -/
  | unknownMnemonic
  /-- a numeric literal above 65535 (R89 gives no rule for one) -/
  | literalOutOfRange
  /-- a word or character that is neither a register, a literal nor a label name (R86, R89) -/
  | badToken
  /-- an address above 0xFFFF is reached -/
  | imageTooLarge
  deriving DecidableEq, Repr

/-- A value an operand or `.word` names: a literal, or a label's address (R87, R90). -/
inductive Value where
  | lit (w : Word)
  | label (name : List Char)
  deriving DecidableEq, Repr

/-- An operand: a register, a value, or a memory operand in brackets (R90). -/
inductive Operand where
  | reg (r : Reg)
  | val (v : Value)
  | memReg (r : Reg)
  | memVal (v : Value)
  deriving DecidableEq, Repr

/-- The 28 mnemonics (R91). -/
inductive Mnemonic where
  | nop | mov | add | sub | and | or | xor | not | shl | shr | cmp | push | pop | ld | st | ldi
  | jmp | jz | jnz | jc | jn | call | ret | halt | lea | addi | subi | mul
  deriving DecidableEq, Repr

/-- An instruction line after its operands are matched: a one-word instruction, or a two-word opcode with the value its
second word takes. -/
inductive AsmInstr where
  | oneWord (i : Instr)
  | twoWord (op : Opcode) (rd : Reg) (v : Value)
  deriving DecidableEq, Repr

/-- A source line that is not blank (R85). -/
inductive Line where
  | label (name : List Char)
  | org (addr : Value)
  | words (vs : List Value)
  | asciiz (bytes : List Byte)
  | instr (i : AsmInstr)
  deriving DecidableEq, Repr

/-! ## Words of a line -/

/-- White space and commas separate operands (R85). White space is the blank, the tab and the carriage return (DESIGN CHOICE,
log entry 36). -/
def isSeparator (c : Char) : Bool := c == ' ' || c == '\t' || c == '\r' || c == ','

/-- The lower-case form of a character, for the case-insensitive names (R85, R88). -/
def lower (c : Char) : Char := c.toLower

/-- The lines of a text (R85). -/
def splitLines : List Char → List (List Char)
  | [] => [[]]
  | c :: rest =>
    if c = '\n' then [] :: splitLines rest
    else
      match splitLines rest with
      | [] => [[c]]
      | line :: more => (c :: line) :: more

/-- A line without its comment: a `;` or a `#` starts one (R85), inside a string or a character literal too (DESIGN CHOICE,
log entry 36). -/
def stripComment (line : List Char) : List Char := line.takeWhile (fun c => c != ';' && c != '#')

/-- A line without the blanks at its two ends. -/
def trim (line : List Char) : List Char :=
  let blank := fun c : Char => c == ' ' || c == '\t' || c == '\r'
  ((line.dropWhile blank).reverse.dropWhile blank).reverse

/-- The pieces of an operand list: brackets, character literals, and runs of other characters. -/
inductive Token where
  | lbracket
  | rbracket
  | quoted (c : Char)
  | word (cs : List Char)
  deriving DecidableEq, Repr

/-- The word collected so far, if it holds anything; `cur` is its characters in reverse. -/
def flush (cur : List Char) (rest : List Token) : List Token :=
  if cur.isEmpty then rest else .word cur.reverse :: rest

/-- The tokens of an operand list (R85, R89, R90); `cur` is the word collected so far, in reverse. R85 says that operands are
separated by commas and white space and no more. DESIGN CHOICE, log entry 36: a bracket or a character literal ends the operand
before it and begins or ends its own without a separator (`LD r1[r2]` is read as `LD r1, [r2]`), blanks may stand inside
brackets, and a run of separators, commas too, separates once. -/
def tokens : List Char → List Char → List Token
  | [], cur => flush cur []
  | '\'' :: c :: '\'' :: rest, cur => flush cur (.quoted c :: tokens rest [])
  | c :: rest, cur =>
    if isSeparator c then flush cur (tokens rest [])
    else if c = '[' then flush cur (.lbracket :: tokens rest [])
    else if c = ']' then flush cur (.rbracket :: tokens rest [])
    else tokens rest (c :: cur)

/-! ## Operands -/

/-- The register names, lower case (R88). -/
def registerNames : List (List Char × Reg) :=
  [(['r', '0'], .r0), (['r', '1'], .r1), (['r', '2'], .r2), (['r', '3'], .r3), (['r', '4'], .r4), (['r', '5'], .r5),
   (['r', '6'], .r6), (['r', '7'], .r7), (['s', 'p'], .r7)]

/-- The register a name stands for, in either case (R88). -/
def registerNamed (cs : List Char) : Option Reg :=
  (registerNames.find? (fun e => e.1 == cs.map lower)).map (fun e => e.2)

/-- The value of a digit in base 10 or 16. -/
def digitValue (c : Char) : Option Nat :=
  let n := c.toNat
  if 48 ≤ n ∧ n ≤ 57 then some (n - 48)
  else if 97 ≤ n ∧ n ≤ 102 then some (n - 87)
  else if 65 ≤ n ∧ n ≤ 70 then some (n - 55)
  else none

/-- The number a run of digits stands for in a base, after the digits already read as `acc`. -/
def numberFrom (base : Nat) : Nat → List Char → Option Nat
  | acc, [] => some acc
  | acc, c :: rest =>
    match digitValue c with
    | some d => if d < base then numberFrom base (acc * base + d) rest else none
    | none => none

/-- A word's value as a numeric literal: decimal, or hexadecimal after `0x` or `0X` (R89). -/
def literalNat : List Char → Option Nat
  | '0' :: 'x' :: d :: ds => numberFrom 16 0 (d :: ds)
  | '0' :: 'X' :: d :: ds => numberFrom 16 0 (d :: ds)
  | d :: ds => numberFrom 10 0 (d :: ds)
  | [] => none

/-- Letters, digits and the underscore: the characters of a label name (DESIGN CHOICE, log entry 36). -/
def isNameChar (c : Char) : Bool := c.isAlphanum || c == '_'

/-- A label name: not empty, not starting with a digit or `.` (R86). -/
def isLabelName : List Char → Bool
  | [] => false
  | c :: rest => isNameChar c && !c.isDigit && rest.all isNameChar

/-- A 16-bit literal (R89). -/
def literalWord (n : Nat) : Except AsmError Value :=
  if n < 65536 then .ok (.lit (BitVec.ofNat 16 n)) else .error .literalOutOfRange

/-- The byte value of a character (R87, R89). -/
def charByte (c : Char) : Option Byte := if c.toNat < 256 then some (BitVec.ofNat 8 c.toNat) else none

/-- The value a word names: a literal or a label (R89, R90). -/
def valueOfWord (cs : List Char) : Except AsmError Value :=
  match literalNat cs with
  | some n => literalWord n
  | none => if isLabelName cs then .ok (.label cs) else .error .badToken

/-- The value a character literal names (R89). -/
def valueOfChar (c : Char) : Except AsmError Value :=
  match charByte c with
  | some b => literalWord b.toNat
  | none => .error .badToken

/-- Put an operand before the operands that follow. -/
def consOperand (o : Except AsmError Operand) (rest : Except AsmError (List Operand)) :
    Except AsmError (List Operand) :=
  match o, rest with
  | .error e, _ => .error e
  | .ok _, .error e => .error e
  | .ok x, .ok xs => .ok (x :: xs)

/-- A value as an operand outside brackets. -/
def plainOperand (v : Except AsmError Value) : Except AsmError Operand :=
  match v with
  | .ok x => .ok (.val x)
  | .error e => .error e

/-- A value as an operand inside brackets. -/
def memoryOperand (v : Except AsmError Value) : Except AsmError Operand :=
  match v with
  | .ok x => .ok (.memVal x)
  | .error e => .error e

/-- The operands a token list stands for (R90). -/
def operands : List Token → Except AsmError (List Operand)
  | [] => .ok []
  | .lbracket :: .word cs :: .rbracket :: rest =>
    consOperand (match registerNamed cs with
      | some r => .ok (.memReg r)
      | none => memoryOperand (valueOfWord cs)) (operands rest)
  | .lbracket :: .quoted c :: .rbracket :: rest => consOperand (memoryOperand (valueOfChar c)) (operands rest)
  | .word cs :: rest =>
    consOperand (match registerNamed cs with
      | some r => .ok (.reg r)
      | none => plainOperand (valueOfWord cs)) (operands rest)
  | .quoted c :: rest => consOperand (plainOperand (valueOfChar c)) (operands rest)
  | .lbracket :: _ => .error .badOperands
  | .rbracket :: _ => .error .badOperands

/-! ## Lines -/

/-- The mnemonics, lower case (R91). -/
def mnemonicNames : List (List Char × Mnemonic) :=
  [(['n', 'o', 'p'], .nop), (['m', 'o', 'v'], .mov), (['a', 'd', 'd'], .add), (['s', 'u', 'b'], .sub),
   (['a', 'n', 'd'], .and), (['o', 'r'], .or), (['x', 'o', 'r'], .xor), (['n', 'o', 't'], .not),
   (['s', 'h', 'l'], .shl), (['s', 'h', 'r'], .shr), (['c', 'm', 'p'], .cmp), (['p', 'u', 's', 'h'], .push),
   (['p', 'o', 'p'], .pop), (['l', 'd'], .ld), (['s', 't'], .st), (['l', 'd', 'i'], .ldi), (['j', 'm', 'p'], .jmp),
   (['j', 'z'], .jz), (['j', 'n', 'z'], .jnz), (['j', 'c'], .jc), (['j', 'n'], .jn), (['c', 'a', 'l', 'l'], .call),
   (['r', 'e', 't'], .ret), (['h', 'a', 'l', 't'], .halt), (['l', 'e', 'a'], .lea), (['a', 'd', 'd', 'i'], .addi),
   (['s', 'u', 'b', 'i'], .subi), (['m', 'u', 'l'], .mul)]

/-- The mnemonic a name stands for, in any case (R85, R91). -/
def mnemonicNamed (cs : List Char) : Option Mnemonic :=
  (mnemonicNames.find? (fun e => e.1 == cs.map lower)).map (fun e => e.2)

/-- The instructions written with no operand (R91). -/
def noOperandInstr : Mnemonic → Option AsmInstr
  | .nop => some (.oneWord .nop)
  | .ret => some (.oneWord .ret)
  | .halt => some (.oneWord .halt)
  | _ => none

/-- The instructions written with one register (R91). -/
def oneRegInstr (d : Reg) : Mnemonic → Option AsmInstr
  | .push => some (.oneWord (.push d))
  | .pop => some (.oneWord (.pop d))
  | _ => none

/-- The instructions written with two registers, destination first (R91). -/
def twoRegInstr (d s : Reg) : Mnemonic → Option AsmInstr
  | .mov => some (.oneWord (.mov d s))
  | .add => some (.oneWord (.add d s))
  | .sub => some (.oneWord (.sub d s))
  | .and => some (.oneWord (.and d s))
  | .or => some (.oneWord (.or d s))
  | .xor => some (.oneWord (.xor d s))
  | .not => some (.oneWord (.not d s))
  | .shl => some (.oneWord (.shl d s))
  | .shr => some (.oneWord (.shr d s))
  | .cmp => some (.oneWord (.cmp d s))
  | .mul => some (.oneWord (.mul d s))
  | _ => none

/-- The instructions written with a register and a value (R91). -/
def regValueInstr (d : Reg) (v : Value) : Mnemonic → Option AsmInstr
  | .ldi => some (.twoWord .ldi d v)
  | .lea => some (.twoWord .lea d v)
  | .addi => some (.twoWord .addi d v)
  | .subi => some (.twoWord .subi d v)
  | _ => none

/-- The instructions written with a value alone, the target (R91). -/
def valueInstr (v : Value) : Mnemonic → Option AsmInstr
  | .jmp => some (.twoWord .jmp .r0 v)
  | .jz => some (.twoWord .jz .r0 v)
  | .jnz => some (.twoWord .jnz .r0 v)
  | .jc => some (.twoWord .jc .r0 v)
  | .jn => some (.twoWord .jn .r0 v)
  | .call => some (.twoWord .call .r0 v)
  | _ => none

/-- LD and ST with an absolute address in brackets (R91). -/
def regAbsoluteInstr (d : Reg) (v : Value) : Mnemonic → Option AsmInstr
  | .ld => some (.twoWord .ldAbs d v)
  | .st => some (.twoWord .stAbs d v)
  | _ => none

/-- LD and ST with a register in brackets (R91). -/
def regIndirectInstr (d s : Reg) : Mnemonic → Option AsmInstr
  | .ld => some (.oneWord (.ldInd d s))
  | .st => some (.oneWord (.stInd d s))
  | _ => none

/-- The table of R91: the instruction a mnemonic makes with these operands; none for a wrong operand count or kind (R96). The
operand order is the spec's decision D22 (DESIGN CHOICE, log entry 22). -/
def instrLine (m : Mnemonic) : List Operand → Option AsmInstr
  | [] => noOperandInstr m
  | [.reg d] => oneRegInstr d m
  | [.val v] => valueInstr v m
  | [.reg d, .reg s] => twoRegInstr d s m
  | [.reg d, .val v] => regValueInstr d v m
  | [.reg d, .memVal v] => regAbsoluteInstr d v m
  | [.reg d, .memReg s] => regIndirectInstr d s m
  | _ => none

/-- The bytes of a string's characters; none when one of them is `"` or no byte. -/
def stringBytes : List Char → Option (List Byte)
  | [] => some []
  | c :: rest =>
    if c = '"' then none
    else
      match charByte c, stringBytes rest with
      | some b, some bs => some (b :: bs)
      | _, _ => none

/-- The bytes of a quoted string, without escapes (R87). -/
def quotedString : List Char → Except AsmError Line
  | '"' :: rest =>
    match rest.reverse with
    | '"' :: inner =>
      match stringBytes inner.reverse with
      | some bs => .ok (.asciiz bs)
      | none => .error .badString
    | _ => .error .badString
  | _ => .error .badString

/-- The values of a `.word` list; only values outside brackets (R87). -/
def wordValues : List Operand → Option (List Value)
  | [] => some []
  | .val v :: rest => (wordValues rest).map (fun vs => v :: vs)
  | _ :: _ => none

/-- A directive line: its name with the dot, and the rest of the line (R87). `.org` takes a literal or, as R90 says for
every address, a label. Directive names are lower case (DESIGN CHOICE, log entry 36). -/
def directiveLine (name rest : List Char) : Except AsmError Line :=
  if name = ['.', 'o', 'r', 'g'] then
    match operands (tokens rest []) with
    | .ok [.val a] => .ok (.org a)
    | .ok _ => .error .badOrg
    | .error e => .error e
  else if name = ['.', 'w', 'o', 'r', 'd'] then
    match operands (tokens rest []) with
    | .ok [] => .error .badWordList
    | .ok os =>
      match wordValues os with
      | some vs => .ok (.words vs)
      | none => .error .badWordList
    | .error e => .error e
  else if name = ['.', 'a', 's', 'c', 'i', 'i', 'z'] then quotedString (trim rest)
  else .error .unknownMnemonic

/-- One source line (R85): none for a blank line or a line that holds only a comment. R86 says that it is not stated whether a
label may share a line with an instruction; DESIGN CHOICE, log entry 36: it may not, and `name: NOP` is rejected (its first
word is no mnemonic). A mnemonic or directive name ends at the first separator (the same entry). -/
def parseLine (text : List Char) : Except AsmError (Option Line) :=
  let line := trim (stripComment text)
  let head := line.takeWhile (fun c => !isSeparator c)
  let rest := line.dropWhile (fun c => !isSeparator c)
  match line with
  | [] => .ok none
  | '.' :: _ =>
    match directiveLine head rest with
    | .ok l => .ok (some l)
    | .error e => .error e
  | _ =>
    match line.reverse with
    | ':' :: name => if isLabelName name.reverse then .ok (some (.label name.reverse)) else .error .badToken
    | _ =>
      match mnemonicNamed head with
      | none => .error .unknownMnemonic
      | some m =>
        match operands (tokens rest []) with
        | .error e => .error e
        | .ok os =>
          match instrLine m os with
          | some i => .ok (some (.instr i))
          | none => .error .badOperands

/-- The lines of a source text that are not blank (R85). -/
def parseLines : List (List Char) → Except AsmError (List Line)
  | [] => .ok []
  | text :: rest =>
    match parseLine text, parseLines rest with
    | .error e, _ => .error e
    | .ok _, .error e => .error e
    | .ok none, .ok ls => .ok ls
    | .ok (some l), .ok ls => .ok (l :: ls)

/-! ## The two passes (R94) -/

/-- How many words a line occupies (R93). -/
def lineSize : Line → Nat
  | .label _ => 0
  | .org _ => 0
  | .words vs => vs.length
  | .asciiz bs => bs.length + 1
  | .instr (.oneWord _) => 1
  | .instr (.twoWord _ _ _) => 2

/-- The labels and their addresses, the newest definition first. -/
abbrev Labels := List (List Char × Word)

/-- The word a value stands for: the literal, or the label's address (R90, R94). -/
def resolve (ls : Labels) : Value → Except AsmError Word
  | .lit w => .ok w
  | .label name =>
    match ls.find? (fun e => e.1 == name) with
    | some e => .ok e.2
    | none => .error .undefinedLabel

/-- The location counter after a line (R87, R93), with the labels defined above it. `.org` sets it to the value given, a literal
or a label's address (R90). DESIGN CHOICE, log entry 38: the label must be defined above the `.org`, because pass 1 (R94) has no
address for another; of two definitions above, the later one counts. -/
def nextLocation (above : Labels) (loc : Nat) : Line → Except AsmError Nat
  | .org v =>
    match resolve above v with
    | .ok a => .ok a.toNat
    | .error e => .error e
  | l => .ok (loc + lineSize l)

/-- The labels after a line: a label line binds its name to the location counter, hiding an earlier definition (R86, R94). -/
def bindLabel (above : Labels) (loc : Nat) : Line → Labels
  | .label name => (name, BitVec.ofNat 16 loc) :: above
  | _ => above

/-- Whether a label line stands beyond the last address. -/
def labelBeyondEnd (loc : Nat) : Line → Bool
  | .label _ => decide (65536 ≤ loc)
  | _ => false

/-- The location counter and the labels after a line; both passes walk the lines by it (R94). -/
def advance (above : Labels) (loc : Nat) (l : Line) : Except AsmError (Nat × Labels) :=
  match nextLocation above loc l with
  | .error e => .error e
  | .ok next =>
    if 65536 < next ∨ labelBeyondEnd loc l then .error .imageTooLarge else .ok (next, bindLabel above loc l)

/-- Pass 1: the address of every label; a later definition of a name hides an earlier one (R94). -/
def collectLabels : Nat → Labels → List Line → Except AsmError Labels
  | _, above, [] => .ok above
  | loc, above, l :: rest =>
    match advance above loc l with
    | .error e => .error e
    | .ok (next, above') => collectLabels next above' rest

/-- The words of a list of values. -/
def resolveAll (ls : Labels) : List Value → Except AsmError (List Word)
  | [] => .ok []
  | v :: rest =>
    match resolve ls v, resolveAll ls rest with
    | .error e, _ => .error e
    | .ok _, .error e => .error e
    | .ok w, .ok ws => .ok (w :: ws)

/-- The words a line emits (R87, R91). -/
def lineWords (ls : Labels) : Line → Except AsmError (List Word)
  | .label _ => .ok []
  | .org _ => .ok []
  | .words vs => resolveAll ls vs
  | .asciiz bs => .ok (bs.map (fun b => BitVec.ofNat 16 b.toNat) ++ [0])
  | .instr (.oneWord i) => .ok (encode i)
  | .instr (.twoWord op rd v) =>
    match resolve ls v with
    | .ok w => .ok (encodeI op (regNumber rd) w)
    | .error e => .error e

/-- An image with one word stored at an address: it grows as far as needed, skipped addresses are 0 (R95). -/
def storeWord : List Word → Nat → Word → List Word
  | [], 0, w => [w]
  | [], a + 1, w => 0 :: storeWord [] a w
  | _ :: rest, 0, w => w :: rest
  | x :: rest, a + 1, w => x :: storeWord rest a w

/-- An image with words stored from an address upward. -/
def storeWords : List Word → Nat → List Word → List Word
  | image, _, [] => image
  | image, a, w :: rest => storeWords (storeWord image a w) (a + 1) rest

/-- Pass 2: the image, every label in a word replaced by its address in `ls`, the whole of pass 1 (R94, R95). The location
counter goes the way it went in pass 1. -/
def emitLines (ls : Labels) : Nat → Labels → List Word → List Line → Except AsmError (List Word)
  | _, _, image, [] => .ok image
  | loc, above, image, l :: rest =>
    match lineWords ls l, advance above loc l with
    | .error e, _ => .error e
    | .ok _, .error e => .error e
    | .ok ws, .ok (next, above') => emitLines ls next above' (storeWords image loc ws) rest

/-- The image of a list of lines: two passes over the same lines, both from location 0 (R94). -/
def assembleLines (lines : List Line) : Except AsmError (List Word) :=
  match collectLabels 0 [] lines with
  | .error e => .error e
  | .ok ls => emitLines ls 0 [] [] lines

/-- The image a source text stands for (R85 to R96); each character is one byte of the text. -/
def assemble (source : List Char) : Except AsmError (List Word) :=
  match parseLines (splitLines source) with
  | .error e => .error e
  | .ok lines => assembleLines lines

/-- The binary image file of a source text: its words, low byte first (R97). -/
def assembleBytes (source : List Char) : Except AsmError (List Byte) :=
  match assemble source with
  | .error e => .error e
  | .ok ws => .ok (bytesOfWords ws)

end Sys2Proof.Machine.Assembler
end

