-- ==== Sys2Proof/Machine/HostOps.lean ====
section
/-! DEFINITION. The host's side of the boundary (R8): reset, power-on, load, run, inspection. Each acts while the core is not
inside a step (R7). -/

namespace Sys2Proof.Machine

/-- `reset()` (R230): the CPU state takes its reset values. Memory stays unless RESET_CLEARS_MEMORY (D16, log entry 16); the
two output streams stay (D25, log entry 25). -/
def hostReset (s : State) : State :=
  { State.reset with
    mem := if params.resetClearsMemory then [] else s.mem
    out := s.out
    report := s.report }

/-- Power-on (R231): every cell of memory 0x0000, `Out` and `Report` empty, then `reset()`. -/
def powerOn (s : State) : State := hostReset { s with mem := [], out := [], report := [] }

/-- `mem[base + i] <- image[i]`, not routed (R235); `base` counts words. -/
def loadWords : Memory → Nat → List Word → Memory
  | m, _, [] => m
  | m, base, w :: rest => loadWords (m.write (BitVec.ofNat 16 base) w) (base + 1) rest

/-- `load(image, base)` (R235): the backing array alone changes. An image that would run past 0xFFFF is refused (D17, log
entry 17). -/
def load (image : List Word) (base : Word) (s : State) : Host.Outcome State Fault Refusal :=
  if base.toNat + image.length ≤ 65536 then .next (s.setMem (loadWords s.mem base.toNat image))
  else .refused .loadPastEnd

/-- `load` of a binary image file's bytes (R97, R236). -/
def loadBytes (bytes : List Byte) (base : Word) (s : State) : Host.Outcome State Fault Refusal :=
  load (wordsOfBytes bytes) base s

/-- How a fuelled `run()` comes out. Running out of fuel is not an end state (R101, U12). -/
inductive RunResult where
  /-- the core is Halted: `run()` returns (R101, R240) -/
  | ended (s : State)
  /-- still Running when the fuel ran out -/
  | outOfFuel (s : State)
  /-- a step had no next state: a string print that never ends -/
  | stuck (f : Fault)
  /-- a step was refused -/
  | refused (r : Refusal)
  deriving DecidableEq, Repr

/-- `run()` under fuel: the instruction cycle is repeated while the state is Running (R101, R120). -/
def run : Nat → State → RunResult
  | 0, s => if s.halted then .ended s else .outOfFuel s
  | fuel + 1, s =>
    if s.halted then .ended s
    else
      match step s with
      | .next t => run fuel t
      | .fault f => .stuck f
      | .refused r => .refused r

/-- What inspection shows beside the memory cells (R217). -/
structure Inspection where
  regs : Regs
  pc : Word
  flags : Flags
  halted : Bool
  cyc : BitVec 64
  deriving DecidableEq, Repr

/-- Inspection (R217): the registers, flags, pc, halted and all 64 bits of the cycle counter. -/
def inspect (s : State) : Inspection :=
  { regs := s.regs, pc := s.pc, flags := s.flags, halted := s.halted, cyc := s.cyc }

/-- Inspection of one memory cell, read from the backing array (R217, R59). -/
def inspectCell (s : State) (a : Word) : Word := s.mem.read a

/-- Inspection of the whole array, in address order (R217). -/
def inspectMemory (s : State) : List Word := (List.range 65536).map (fun a => inspectCell s (BitVec.ofNat 16 a))

end Sys2Proof.Machine
end

