-- ==== Sys2Proof/Safety.lean ====
section
/-! DEFINITION. What counts as a good state and a safe run, in the words the statements use. -/

namespace Sys2Proof.Machine

/-- What holds of the core between instruction cycles: the memory is in its canonical form, and no string request is pending
(R32: "`pend_valid = 0` at every instruction boundary"). -/
abbrev AtBoundary (s : State) : Prop := s.mem.wf ∧ s.pendValid = false

/-- The core has taken the exception at some time: a mark no later step clears (R204). -/
def faultMarked (s : State) : Bool := !s.report.isEmpty

/-- The state a run stands in when it has one: ended or still going; none when a step had no next state. -/
def RunResult.state : RunResult → Option State
  | .ended s => some s
  | .outOfFuel s => some s
  | .stuck _ => none
  | .refused _ => none

/-- The run of at most `fuel` steps is safe: every step has a next state, and the exception is not taken (R200, R240). -/
def SafeRun (fuel : Nat) (s : State) : Prop :=
  ∃ t, (run fuel s).state = some t ∧ t.report = s.report

end Sys2Proof.Machine
end

