-- ==== Sys2Proof/Certificates/Slice0/Obligations.lean ====
section
/-! DEFINITION. The statements for the provers, and the small vocabulary they share. A statement that rests on a decision of
the spec's own (a mark `[decision: ...]`) names it and the model's log entry in its docstring. -/

namespace Sys2Proof.Claims

open Sys2Proof.Machine

/-- Every register but those listed reads as before. -/
def RegsKeptBut (s t : State) (changed : List Reg) : Prop := ∀ r, r ∉ changed → t.reg r = s.reg r

/-- Every byte of memory reads as before. -/
def BytesKept (s t : State) : Prop := ∀ k : Nat, t.mem.byteAt k = s.mem.byteAt k

/-- Every byte of memory but the two of word `a` reads as before. -/
def BytesKeptBut (s t : State) (a : Word) : Prop :=
  ∀ k : Nat, k ≠ 2 * a.toNat → k ≠ 2 * a.toNat + 1 → t.mem.byteAt k = s.mem.byteAt k

/-- The pending string request is as before. -/
def RequestKept (s t : State) : Prop := t.pendValid = s.pendValid ∧ t.pendAddr = s.pendAddr

/-- The halted flag and the report list are as before. -/
def ControlKept (s t : State) : Prop := t.halted = s.halted ∧ t.report = s.report

/-- Nothing but registers, flags, pc and cycle counter may differ: memory, console, request, halted flag and reports are as
before. -/
def RestKept (s t : State) : Prop :=
  BytesKept s t ∧ t.out = s.out ∧ RequestKept s t ∧ ControlKept s t

/-- Zero and Negative follow the 16-bit value `v`: Z is "v = 0", N is bit 15, as numbers. -/
def ZNOf (f : Flags) (v : Word) : Prop :=
  (f.z = true ↔ v.toNat = 0) ∧ (f.n = true ↔ 32768 ≤ v.toNat)

/-- An instruction that writes `v` to `rd` by the register write, from `s` to `t`: the value, Z and N from it, one count, pc
and everything else untouched. C and V are left to the statement. -/
def RegisterWritten (s t : State) (rd : Reg) (v : Word) : Prop :=
  t.reg rd = v ∧ RegsKeptBut s t [rd] ∧ ZNOf t.flags v ∧ t.cyc = s.cyc + 1 ∧ t.pc = s.pc ∧ RestKept s t

/-- What a routed read of address `a` gives (R44, R56, R57; MMIO_READ_DEFAULT is D11, log entry 11). -/
def routedValue (s : State) (a : Word) : Word :=
  if a.toNat < 0xFF00 then s.mem.read a
  else if a.toNat = 0xFF20 then BitVec.ofNat 16 s.cyc.toNat
  else 0

/-- What a routed write of `v` to address `a` does to memory, console and request (R45, R51 to R55, R57, R59). -/
def Stored (s t : State) (a v : Word) : Prop :=
  if a.toNat < 0xFF00 then t.mem.read a = v ∧ BytesKeptBut s t a ∧ t.out = s.out ∧ RequestKept s t
  else
    BytesKept s t ∧
      (if a.toNat = 0xFF00 then t.out = s.out ++ [BitVec.ofNat 8 v.toNat] ∧ RequestKept s t
       else if a.toNat = 0xFF10 then t.out = s.out ∧ t.pendValid = true ∧ t.pendAddr = v
       else if a.toNat = 0xFF12 then t.out = s.out ++ decimalText v ∧ RequestKept s t
       else t.out = s.out ∧ RequestKept s t)

/-- The signed sum or difference `x` lies outside -32768..32767. -/
def SignedOverflow (x : Int) : Prop := x < -32768 ∨ 32767 < x

/-- The state the execute phase starts from: after the fetch of every word of the instruction (R103). -/
def postFetch (s : State) (i : Instr) : State :=
  if wordCount i = 2 then afterFetch (afterFetch s) else afterFetch s

/-- What the whole instruction cycle adds to the cycle counter (R119). -/
def cycleCost : Instr → Nat
  | .nop | .halt | .ret | .cmp _ _ | .undefined30 _ | .undefined31 _ => 1
  | .mov _ _ | .add _ _ | .sub _ _ | .and _ _ | .or _ _ | .xor _ _ | .not _ _ | .shl _ _ | .shr _ _ | .mul _ _
  | .ldInd _ _ | .pop _ | .push _ | .stInd _ _ | .jmp _ | .jz _ | .jnz _ | .jc _ | .jn _ => 2
  | .ldi _ _ | .lea _ _ | .addi _ _ | .subi _ _ | .ldAbs _ _ | .stAbs _ _ | .call _ => 3

/-- The registers an instruction may change (R22). -/
def destinations : Instr → List Reg
  | .mov rd _ | .add rd _ | .sub rd _ | .and rd _ | .or rd _ | .xor rd _ | .not rd _ | .shl rd _ | .shr rd _
  | .mul rd _ | .ldInd rd _ | .ldAbs rd _ | .ldi rd _ | .lea rd _ | .addi rd _ | .subi rd _ => [rd]
  | .pop rd => [rd, .r7]
  | .push _ | .call _ | .ret => [.r7]
  | .nop | .halt | .cmp _ _ | .stAbs _ _ | .stInd _ _ | .jmp _ | .jz _ | .jnz _ | .jc _ | .jn _
  | .undefined30 _ | .undefined31 _ => []

/-- Which flags an instruction may change (R26): none; Z and N; or all four. -/
inductive FlagClass where
  | none
  | zeroNegative
  | all
  deriving DecidableEq, Repr

/-- The rows of R26. -/
def flagClass : Instr → FlagClass
  | .add _ _ | .addi _ _ | .sub _ _ | .subi _ _ | .cmp _ _ | .and _ _ | .or _ _ | .xor _ _ | .not _ _
  | .shl _ _ | .shr _ _ | .mul _ _ => .all
  | .mov _ _ | .ldi _ _ | .lea _ _ | .ldAbs _ _ | .ldInd _ _ | .pop _ => .zeroNegative
  | .stAbs _ _ | .stInd _ _ | .push _ | .call _ | .ret | .jmp _ | .jz _ | .jnz _ | .jc _ | .jn _ | .nop | .halt
  | .undefined30 _ | .undefined31 _ => .none

/-- Whether an instruction's one effect is the exception FatalOpcode (R201). -/
def isUndefined : Instr → Bool
  | .undefined30 _ | .undefined31 _ => true
  | .nop | .mov _ _ | .add _ _ | .sub _ _ | .and _ _ | .or _ _ | .xor _ _ | .not _ _ | .shl _ _ | .shr _ _
  | .cmp _ _ | .push _ | .pop _ | .ldAbs _ _ | .stAbs _ _ | .ldi _ _ | .jmp _ | .jz _ | .jnz _ | .jc _ | .jn _
  | .call _ | .ret | .halt | .ldInd _ _ | .stInd _ _ | .lea _ _ | .addi _ _ | .subi _ _ | .mul _ _ => false

/-- The instructions that end a run: HALT and the two undefined rows (R27, R100). -/
def isHalting : Instr → Bool
  | .halt | .undefined30 _ | .undefined31 _ => true
  | .nop | .mov _ _ | .add _ _ | .sub _ _ | .and _ _ | .or _ _ | .xor _ _ | .not _ _ | .shl _ _ | .shr _ _
  | .cmp _ _ | .push _ | .pop _ | .ldAbs _ _ | .stAbs _ _ | .ldi _ _ | .jmp _ | .jz _ | .jnz _ | .jc _ | .jn _
  | .call _ | .ret | .ldInd _ _ | .stInd _ _ | .lea _ _ | .addi _ _ | .subi _ _ | .mul _ _ => false

/-- The address an instruction stores a word to, computed in the state its meaning runs from; none for a form that stores
nothing (R46, R47). -/
def storeAddress (i : Instr) (s : State) : Option Word :=
  match i with
  | .stAbs _ addr => some (absoluteAddress addr)
  | .stInd rd rs => some (indirectAddress s (stIndAddressReg rd rs))
  | .push _ | .call _ => some (s.sp - 1)
  | .nop | .mov _ _ | .add _ _ | .sub _ _ | .and _ _ | .or _ _ | .xor _ _ | .not _ _ | .shl _ _ | .shr _ _
  | .cmp _ _ | .pop _ | .ldAbs _ _ | .ldi _ _ | .jmp _ | .jz _ | .jnz _ | .jc _ | .jn _ | .ret | .halt | .ldInd _ _
  | .lea _ _ | .addi _ _ | .subi _ _ | .mul _ _ | .undefined30 _ | .undefined31 _ => none

/-- The word an instruction stores at its `storeAddress`: the data register of ST_ABS and ST_IND (its roles are D5, log entry
5), the register of PUSH, for PUSH r7 the decremented SP (D13, log entry 13), the post-fetch pc of CALL; none for a form that
stores nothing (R46, R47). -/
def storedWord (i : Instr) (s : State) : Option Word :=
  match i with
  | .stAbs rd _ => some (s.reg rd)
  | .stInd rd _ => some (s.reg rd)
  | .push r => some (if r = .r7 then s.sp - 1 else s.reg r)
  | .call _ => some s.pc
  | .nop | .mov _ _ | .add _ _ | .sub _ _ | .and _ _ | .or _ _ | .xor _ _ | .not _ _ | .shl _ _ | .shr _ _
  | .cmp _ _ | .pop _ | .ldAbs _ _ | .ldi _ _ | .jmp _ | .jz _ | .jnz _ | .jc _ | .jn _ | .ret | .halt | .ldInd _ _
  | .lea _ _ | .addi _ _ | .subi _ _ | .mul _ _ | .undefined30 _ | .undefined31 _ => none

/-- The number a list of ASCII digits stands for, most significant first. -/
def digitsValue (digits : List Byte) : Nat := digits.foldl (fun acc d => 10 * acc + (d.toNat - 0x30)) 0

/-- The opcodes a mnemonic may assemble to (R91, R92): LD and ST have two, every other mnemonic one. -/
def opcodesOfMnemonic : Assembler.Mnemonic → List Opcode
  | .nop => [.nop]
  | .mov => [.mov]
  | .add => [.add]
  | .sub => [.sub]
  | .and => [.and]
  | .or => [.or]
  | .xor => [.xor]
  | .not => [.not]
  | .shl => [.shl]
  | .shr => [.shr]
  | .cmp => [.cmp]
  | .push => [.push]
  | .pop => [.pop]
  | .ld => [.ldAbs, .ldInd]
  | .st => [.stAbs, .stInd]
  | .ldi => [.ldi]
  | .jmp => [.jmp]
  | .jz => [.jz]
  | .jnz => [.jnz]
  | .jc => [.jc]
  | .jn => [.jn]
  | .call => [.call]
  | .ret => [.ret]
  | .halt => [.halt]
  | .lea => [.lea]
  | .addi => [.addi]
  | .subi => [.subi]
  | .mul => [.mul]

/-- The word a literal or a label stands for; none for a label that is not in the table (R89, R90, R94). -/
def valueWord (ls : Assembler.Labels) : Assembler.Value → Option Word
  | .lit w => some w
  | .label name => (ls.find? (fun e => e.1 = name)).map Prod.snd

/-- The table of R91, row by row: the instruction a source line stands for, destination register first (the spec's decision D22,
log entry 22); none for a line the table does not have. -/
def sourceInstr (ls : Assembler.Labels) (m : Assembler.Mnemonic) (os : List Assembler.Operand) : Option Instr :=
  match m, os with
  | .nop, [] => some .nop
  | .mov, [.reg d, .reg s] => some (.mov d s)
  | .add, [.reg d, .reg s] => some (.add d s)
  | .sub, [.reg d, .reg s] => some (.sub d s)
  | .and, [.reg d, .reg s] => some (.and d s)
  | .or, [.reg d, .reg s] => some (.or d s)
  | .xor, [.reg d, .reg s] => some (.xor d s)
  | .not, [.reg d, .reg s] => some (.not d s)
  | .shl, [.reg d, .reg s] => some (.shl d s)
  | .shr, [.reg d, .reg s] => some (.shr d s)
  | .cmp, [.reg d, .reg s] => some (.cmp d s)
  | .push, [.reg d] => some (.push d)
  | .pop, [.reg d] => some (.pop d)
  | .ld, [.reg d, .memVal v] => (valueWord ls v).map (.ldAbs d)
  | .st, [.reg d, .memVal v] => (valueWord ls v).map (.stAbs d)
  | .ldi, [.reg d, .val v] => (valueWord ls v).map (.ldi d)
  | .jmp, [.val v] => (valueWord ls v).map .jmp
  | .jz, [.val v] => (valueWord ls v).map .jz
  | .jnz, [.val v] => (valueWord ls v).map .jnz
  | .jc, [.val v] => (valueWord ls v).map .jc
  | .jn, [.val v] => (valueWord ls v).map .jn
  | .call, [.val v] => (valueWord ls v).map .call
  | .ret, [] => some .ret
  | .halt, [] => some .halt
  | .ld, [.reg d, .memReg s] => some (.ldInd d s)
  | .st, [.reg d, .memReg s] => some (.stInd d s)
  | .lea, [.reg d, .val v] => (valueWord ls v).map (.lea d)
  | .addi, [.reg d, .val v] => (valueWord ls v).map (.addi d)
  | .subi, [.reg d, .val v] => (valueWord ls v).map (.subi d)
  | .mul, [.reg d, .reg s] => some (.mul d s)
  | _, _ => none

end Sys2Proof.Claims

open Sys2Proof Sys2Proof.Machine Sys2Proof.Claims

/-! ## Encoding -/

/-- Decoding the encoding of any well-formed instruction, with any words after it, gives the instruction and those words
(30_encoding.md, S10 of 95_test_vectors.md). It rests on the decoder's and encoder's one opcode map (D1, log entry 1) and on
PUSH_FIELD (D3, log entry 3). -/
def Obligations.DecodeInvertsEncode : Prop :=
  ∀ (i : Instr) (rest : List Word), WellFormed i = true → decode (encode i ++ rest) = .ok (i, rest)

/-- The words of every instruction, as numbers (the table of 30_encoding.md, section 2, and the formulas EncodeR, EncodeI and
EncodeJ). The opcode numbers are the spec's decision D1 (log entry 1); the fields of PUSH, NOT and ST_IND are D3, D4, D5 (log
entries 3, 4, 5). -/
def Obligations.EncodedWordsAreTheTablesWords : Prop :=
  ∀ (rd rs : Reg) (imm : Word),
    let r := fun op : Nat => [BitVec.ofNat 16 (op * 2048 + regNumber rd * 256 + regNumber rs * 32)]
    let one := fun op : Nat => [BitVec.ofNat 16 (op * 2048 + regNumber rd * 256)]
    let two := fun op : Nat => [BitVec.ofNat 16 (op * 2048 + regNumber rd * 256), imm]
    let j := fun op : Nat => [BitVec.ofNat 16 (op * 2048), imm]
    encode .nop = [0x0000] ∧ encode (.mov rd rs) = r 1 ∧ encode (.add rd rs) = r 2 ∧ encode (.sub rd rs) = r 3 ∧
      encode (.and rd rs) = r 4 ∧ encode (.or rd rs) = r 5 ∧ encode (.xor rd rs) = r 6 ∧ encode (.not rd rs) = r 7 ∧
      encode (.shl rd rs) = r 8 ∧ encode (.shr rd rs) = r 9 ∧ encode (.cmp rd rs) = r 10 ∧ encode (.push rd) = one 11 ∧
      encode (.pop rd) = one 12 ∧ encode (.ldAbs rd imm) = two 13 ∧ encode (.stAbs rd imm) = two 14 ∧
      encode (.ldi rd imm) = two 15 ∧ encode (.jmp imm) = j 16 ∧ encode (.jz imm) = j 17 ∧ encode (.jnz imm) = j 18 ∧
      encode (.jc imm) = j 19 ∧ encode (.jn imm) = j 20 ∧ encode (.call imm) = j 21 ∧ encode .ret = [0xB000] ∧
      encode .halt = [0xB800] ∧ encode (.ldInd rd rs) = r 24 ∧ encode (.stInd rd rs) = r 25 ∧
      encode (.lea rd imm) = two 26 ∧ encode (.addi rd imm) = two 27 ∧ encode (.subi rd imm) = two 28 ∧
      encode (.mul rd rs) = r 29

/-- Bits 4..0 of a first word, and the register fields its opcode does not use, do not matter: two first words with one
defined opcode that agree on rd where the opcode uses rd, and on rs where it uses rs, decode alike. The spec's decision D2 (log
entry 2); the unused fields are those of the table in 30_encoding.md, section 2 (D1, D3, D4, D5: log entries 1, 3, 4, 5). -/
def Obligations.UnusedBitsDoNotMatter : Prop :=
  ∀ (w w' : Word) (rest : List Word),
    w.toNat / 2048 = w'.toNat / 2048 → w.toNat / 2048 < 30 →
    (w.toNat / 2048 ∈ [1, 2, 3, 4, 5, 6, 7, 8, 9, 10, 11, 12, 13, 14, 15, 24, 25, 26, 27, 28, 29] →
      w.toNat / 256 % 8 = w'.toNat / 256 % 8) →
    (w.toNat / 2048 ∈ [1, 2, 3, 4, 5, 6, 7, 8, 9, 10, 24, 25, 29] → w.toNat / 32 % 8 = w'.toNat / 32 % 8) →
    decode (w :: rest) = decode (w' :: rest)

/-- The length of an instruction is a function of its opcode alone: the decoder takes a second word, and the core fetches one,
exactly for the twelve named opcodes, whether or not a jump is taken (30_encoding.md section 1, the length rule). That pc moves on
by one for each fetch modulo 65536, past 0xFFFF to 0, is the spec's decision D19 (log entry 19). -/
def Obligations.SecondWordIsFetchedExactlyForTheTwelve : Prop :=
  let twelve : List Opcode := [.ldi, .lea, .addi, .subi, .ldAbs, .stAbs, .jmp, .jz, .jnz, .jc, .jn, .call]
  (∀ (w : Word) (rest tail : List Word) (i : Instr), decode (w :: rest) = .ok (i, tail) →
    ((∃ op ∈ twelve, opcodeOf i = some op) ∧ ∃ imm, rest = imm :: tail) ∨
    ((∀ op ∈ twelve, opcodeOf i ≠ some op) ∧ rest = tail)) ∧
  (∀ s : State,
    ((∃ op ∈ twelve, opcodeOf (fetchInstr s).1 = some op) ∧ (fetchInstr s).2.pc = s.pc + 2) ∨
    ((∀ op ∈ twelve, opcodeOf (fetchInstr s).1 ≠ some op) ∧ (fetchInstr s).2.pc = s.pc + 1))

/-- A first word is decoded to an undefined-opcode instruction exactly when it is 0xF000 or above, whatever follows, and the
instruction carries the word (30_encoding.md section 3; the two values follow from D1, log entry 1). -/
def Obligations.UndefinedWordsAreThoseFromF000 : Prop :=
  ∀ (w : Word) (rest : List Word),
    (0xF000 ≤ w.toNat ∧ w.toNat < 0xF800 → decode (w :: rest) = .ok (.undefined30 w, rest)) ∧
    (0xF800 ≤ w.toNat → decode (w :: rest) = .ok (.undefined31 w, rest)) ∧
    (w.toNat < 0xF000 → ∀ i tail, decode (w :: rest) = .ok (i, tail) → isUndefined i = false)

/-- A few words written out from the encoding tables decode to the instructions they stand for (95_test_vectors.md section 2;
the numbers are D1, log entry 1). PUSH's word 0x58E0, with a register field that PUSH does not use, rests on D2 and D3 too (log
entries 2 and 3), the last word's unused bits on D2, ST_IND's roles on D5 (log entry 5). -/
def Obligations.SampleWordsDecodeToTheirInstructions : Prop :=
  decode [0x0940] = .ok (.mov .r1 .r2, []) ∧ decode [0x7B00, 0xFFFF] = .ok (.ldi .r3 0xFFFF, []) ∧
    decode [0x1020] = .ok (.add .r0 .r1, []) ∧ decode [0x3480] = .ok (.xor .r4 .r4, []) ∧
    decode [0x58E0] = .ok (.push .r0, []) ∧ decode [0x7300, 0xFF12] = .ok (.stAbs .r3 0xFF12, []) ∧
    decode [0xC940] = .ok (.stInd .r1 .r2, []) ∧ decode [0xA800, 0x0200] = .ok (.call 0x0200, []) ∧
    decode [0xB800] = .ok (.halt, []) ∧ decode [0xF7FF] = .ok (.undefined30 0xF7FF, [])

/-! ## The instruction cycle -/

/-- A step of a running core runs the instruction its words decode to: when the words the two fetches read (through the routed
read, the second after the first fetch has counted) decode to `i`, the step is the meaning of `i` in the state after the fetches
of `i`'s own words, followed by the MMIO service step (40_execution_cycle.md section 2; FETCH_ROUTED is D12, log entry 12; the
cycle counts of the fetches are D10, log entry 10; that pc wraps modulo 65536 is D19, log entry 19). -/
def Obligations.StepRunsTheDecodedInstruction : Prop :=
  ∀ (s : State) (i : Instr) (rest : List Word),
    s.halted = false → WellFormed i = true →
    decode [memRead s s.pc, memRead (afterFetch s) (s.pc + 1)] = .ok (i, rest) →
    step s = thenService (exec i (postFetch s i)) ∧
      postFetch s i =
        { s with pc := s.pc + BitVec.ofNat 16 (wordCount i), cyc := s.cyc + BitVec.ofNat 64 (wordCount i) }

/-- A Halted core does nothing, however often a step or a run is asked for (40_execution_cycle.md section 1; the spec's decision
D28, log entry 28). -/
def Obligations.HaltedCoreNeverChanges : Prop :=
  ∀ (s : State) (fuel : Nat), s.halted = true → step s = .next s ∧ run fuel s = .ended s

/-- Every step keeps what holds between instruction cycles: the memory's canonical form (the model's own, log entry 31) and "no
string request pending" (10_state.md section 7). -/
def Obligations.EveryStepKeepsTheBoundary : Prop :=
  ∀ s t : State, AtBoundary s → step s = .next t → AtBoundary t

/-- The reset state is at an instruction boundary (10_state.md sections 7 and 8). That no string request is pending after reset
is the spec's decision D16 (log entry 16); the memory's canonical form is the model's own (log entry 31). -/
def Obligations.ResetIsAtTheBoundary : Prop := AtBoundary State.reset

/-- No step changes a backing cell of the MMIO window: the cells at 0xFF00 and above stay as power-on or `load` left them
(20_memory.md section 4, a rule the spec marks as derived). It holds of every state. The two bytes of a word are the model's own
form (log entry 31). -/
def Obligations.NoStepWritesAWindowCell : Prop :=
  ∀ (s t : State) (a : Word), step s = .next t → 0xFF00 ≤ a.toNat →
    t.mem.read a = s.mem.read a ∧ t.mem.byteAt (2 * a.toNat) = s.mem.byteAt (2 * a.toNat) ∧
      t.mem.byteAt (2 * a.toNat + 1) = s.mem.byteAt (2 * a.toNat + 1)

/-- The halted flag is set to 1 only by HALT and by the undefined-opcode fault, set to 0 only by `reset()`, and no instruction
reads it (R27). -/
def Obligations.HaltedIsSetOnlyByHaltAndFault : Prop :=
  (∀ s t : State, s.halted = false → step s = .next t →
    (t.halted = true ↔ isHalting (fetchInstr s).1 = true)) ∧
  (∀ s t : State, s.halted = true → step s = .next t → t.halted = true) ∧
  (∀ s : State, (hostReset s).halted = false) ∧
  (∀ (i : Instr) (s t : State) (b : Bool), exec i s = .next t →
    exec i (s.setHalted b) = .next (t.setHalted (b || isHalting i)))

/-- The one exception is raised exactly by a first word whose opcode field is none of the 30 opcodes, and by nothing else: it is
reported and it halts the core at once, and a halted core never goes on; a step of any other instruction, whatever its
addresses, operands and flags, leaves the report list as it was (60_exceptions.md section 1). That a halted core never goes on
is the spec's decision D28 (log entry 28), and that the report is one appended entry with its kind D18 (log entry 18). -/
def Obligations.OnlyUndefinedOpcodesAreReported : Prop :=
  (∀ s : State, isUndefined (fetchInstr s).1 = true ↔ ∀ op : Opcode, opcodeMap op ≠ opcodeField (fetchedWord s)) ∧
  (∀ s t : State, s.halted = false → step s = .next t →
    (isUndefined (fetchInstr s).1 = true → (∃ e, t.report = s.report ++ [e] ∧ e.kind = .fatalOpcode) ∧ t.halted = true) ∧
    (isUndefined (fetchInstr s).1 = false → t.report = s.report)) ∧
  (∀ s : State, s.halted = true → step s = .next s)

/-- Taking the exception, whole: a running core at a boundary whose first word has an undefined opcode reports (kind, opcode,
address, word), halts, and keeps the +1 of the fetch in pc and cyc; every register, flag and memory cell and the console are as
they were, and no second word is fetched (60_exceptions.md section 1). The report's content is the spec's decision D18 (log
entry 18); the two opcode values follow from D1 (log entry 1); that the word is read through the devices when pc is in the
window is FETCH_ROUTED, D12 (log entry 12), the count of the fetch D10 (log entry 10), and the wrap of pc D19 (log entry 19). -/
def Obligations.FatalOpcodeEntryIsPrecise : Prop :=
  ∀ s : State, s.halted = false → AtBoundary s → 0xF000 ≤ (memRead s s.pc).toNat →
    step s = .next
      { s with
        pc := s.pc + 1
        cyc := s.cyc + 1
        halted := true
        report := s.report ++
          [{ kind := .fatalOpcode, opcode := BitVec.ofNat 5 ((memRead s s.pc).toNat / 2048), addr := s.pc,
             word := memRead s s.pc }] }

/-- A step never ends in a refusal, and its only fault is a string print over an array without a zero word (20_memory.md section
4; a scan that never ends is a fault of the model by log entry 27, the spec's decision D27; that the scan wraps and ends at
whole zero words alone is D15, log entry 15). -/
def Obligations.OnlyAnEndlessStringStopsAStep : Prop :=
  (∀ (s : State) (r : Refusal), step s ≠ .refused r) ∧
  (∀ (s : State) (f : Fault), step s = .fault f →
    s.halted = false ∧ ∃ u, exec (fetchInstr s).1 (fetchInstr s).2 = .next u ∧ u.pendValid = true ∧
      ∀ a : Word, u.mem.read a ≠ 0)

/-- Progress: from a boundary state in which some backing cell of the window is zero (as power-on leaves all of them), a run of
any length has a state: no step of it is stuck (R60 and R210 say that nothing else can stop one; D27, log entry 27). That the
string print reads the window's backing cells and wraps is the spec's decision D15 (log entry 15); the canonical form is the
model's own (log entry 31). -/
def Obligations.RunsNeverGetStuckWithAZeroWindowCell : Prop :=
  ∀ (s : State) (fuel : Nat), AtBoundary s → (∃ a : Word, 0xFF00 ≤ a.toNat ∧ s.mem.read a = 0) →
    ∃ t, (run fuel s).state = some t ∧ AtBoundary t

/-- What every instruction cycle adds to the cycle counter (the table of 40_execution_cycle.md section 6; the spec's decision
D10, log entry 10, and SP_UPDATE_SIDE_EFFECTS = false, D9, log entry 9). -/
def Obligations.CycleCounterGrowsByTheTable : Prop :=
  ∀ s t : State, s.halted = false → step s = .next t →
    t.cyc = s.cyc + BitVec.ofNat 64 (cycleCost (fetchInstr s).1)

/-- The console stream and the report list only grow, and a step never takes back what was emitted (10_state.md section 7,
20_memory.md section 3; the streams as state are the spec's decision D25, log entry 25). -/
def Obligations.OutputsOnlyGrow : Prop :=
  ∀ s t : State, step s = .next t → (∃ more, t.out = s.out ++ more) ∧ (∃ more, t.report = s.report ++ more)

/-- Whole-machine register frame: a step changes no general register but the destinations R22's table gives the fetched
instruction (10_state.md section 1; the silent SP updates are D9, log entry 9). -/
def Obligations.StepChangesOnlyDestinationRegisters : Prop :=
  ∀ s t : State, step s = .next t → RegsKeptBut s t (destinations (fetchInstr s).1)

/-- Whole-machine flag frame: a step changes no flag but those the table of 10_state.md section 3 gives the fetched
instruction. That the SP updates of PUSH, POP, CALL and RET touch no flag is SP_UPDATE_SIDE_EFFECTS = false, the spec's
decision D9 (log entry 9). -/
def Obligations.StepChangesOnlyTheFlagsItsRowNames : Prop :=
  ∀ s t : State, s.halted = false → step s = .next t →
    (flagClass (fetchInstr s).1 = .none → t.flags = s.flags) ∧
    (flagClass (fetchInstr s).1 = .zeroNegative → t.flags.c = s.flags.c ∧ t.flags.v = s.flags.v)

/-- Whole-machine memory frame: a step changes no byte of memory but the two of the word whose address the fetched instruction
stores to, computed in the state after its fetches; a form that stores nothing changes none (20_memory.md sections 2 and 4).
ST_IND's address register is D5 (log entry 5); the two bytes of a word are the model's own form (log entry 31). -/
def Obligations.StepChangesOnlyTheStoredWord : Prop :=
  ∀ s t : State, s.halted = false → step s = .next t →
    match storeAddress (fetchInstr s).1 (fetchInstr s).2 with
    | none => BytesKept s t
    | some a => if a.toNat < 0xFF00 then BytesKeptBut s t a else BytesKept s t

/-- Nothing reads the Overflow flag: two states that differ in V alone have steps with the same result, V apart (10_state.md
section 3, a table the spec marks as derived). That no jump tests V rests on the conditions of D8 (log entry 8). -/
def Obligations.NoInstructionReadsOverflow : Prop :=
  ∀ (s t : State) (b : Bool), step s = .next t →
    ∃ u, step (s.setFlags { s.flags with v := b }) = .next u ∧ u.setFlags { u.flags with v := t.flags.v } = t

/-! ## The write primitives and the ALU -/

/-- The architectural register write: the register takes the value, Z and N follow it, the cycle counter counts one, C and V and
everything else stay; for every register, r7 included (R105). -/
def Obligations.RegisterWriteSetsZeroAndNegative : Prop :=
  ∀ (s : State) (r : Reg) (v : Word),
    RegisterWritten s (writeReg s r v) r v ∧ (writeReg s r v).flags.c = s.flags.c ∧
      (writeReg s r v).flags.v = s.flags.v

/-- AluAdd: the sum modulo 65536; C exactly when the unsigned sum is 65536 or more; V exactly when the signed sum lies outside
-32768..32767; Z and N from the result (R110). -/
def Obligations.AluAddIsExact : Prop :=
  ∀ a b : Word,
    (aluAdd a b).value.toNat = (a.toNat + b.toNat) % 65536 ∧
      ((aluAdd a b).flags.c = true ↔ 65536 ≤ a.toNat + b.toNat) ∧
      ((aluAdd a b).flags.v = true ↔ SignedOverflow (a.toInt + b.toInt)) ∧
      ZNOf (aluAdd a b).flags (aluAdd a b).value

/-- AluSub: the difference modulo 65536; C is a borrow, set exactly when the minuend is below the subtrahend as unsigned; V
exactly when the signed difference lies outside -32768..32767; Z and N from the result (R111). -/
def Obligations.AluSubIsExact : Prop :=
  ∀ a b : Word,
    (aluSub a b).value.toNat = (a.toNat + 65536 - b.toNat) % 65536 ∧
      ((aluSub a b).flags.c = true ↔ a.toNat < b.toNat) ∧
      ((aluSub a b).flags.v = true ↔ SignedOverflow (a.toInt - b.toInt)) ∧
      ZNOf (aluSub a b).flags (aluSub a b).value

/-- AluMul: the low 16 bits of the unsigned product; C exactly when the product needs more than 16 bits; V cleared; Z and N from
the low 16 bits (R115). -/
def Obligations.AluMulKeepsTheLowHalf : Prop :=
  ∀ a b : Word,
    (aluMul a b).value.toNat = a.toNat * b.toNat % 65536 ∧
      ((aluMul a b).flags.c = true ↔ 65536 ≤ a.toNat * b.toNat) ∧
      (aluMul a b).flags.v = false ∧ ZNOf (aluMul a b).flags (aluMul a b).value

/-! ## Instructions: completion, result, frame -/

/-- MOV, LDI and LEA complete in every state: the destination takes the source register, the immediate, the address itself; Z
and N from it, C and V unchanged, nothing else but the count (41_moves.md). MOV's roles are D29 (log entry 29), LEA's meaning D6
(log entry 6). -/
def Obligations.MovesWriteTheirOperand : Prop :=
  ∀ (rd rs : Reg) (imm : Word) (s : State),
    (∃ t, exec (.mov rd rs) s = .next t ∧ RegisterWritten s t rd (s.reg rs) ∧ t.flags.c = s.flags.c ∧
      t.flags.v = s.flags.v) ∧
    (∃ t, exec (.ldi rd imm) s = .next t ∧ RegisterWritten s t rd imm ∧ t.flags.c = s.flags.c ∧ t.flags.v = s.flags.v) ∧
    (∃ t, exec (.lea rd imm) s = .next t ∧ RegisterWritten s t rd imm ∧ t.flags.c = s.flags.c ∧ t.flags.v = s.flags.v)

/-- ADD and ADDI complete in every state with the sum modulo 65536 in rd, carry and signed overflow as numbers say, Z and N from
the result, and nothing else changed but the count (42_arithmetic.md). Both operands are read before the write (D23, log entry
23); ADDI's flags are D7 (log entry 7). -/
def Obligations.AdditionsAreExact : Prop :=
  ∀ (rd rs : Reg) (imm : Word) (s : State),
    let sum := fun (b : Word) (t : State) =>
      (∃ v : Word, v.toNat = ((s.reg rd).toNat + b.toNat) % 65536 ∧ RegisterWritten s t rd v) ∧
      (t.flags.c = true ↔ 65536 ≤ (s.reg rd).toNat + b.toNat) ∧
      (t.flags.v = true ↔ SignedOverflow ((s.reg rd).toInt + b.toInt))
    (∃ t, exec (.add rd rs) s = .next t ∧ sum (s.reg rs) t) ∧ (∃ t, exec (.addi rd imm) s = .next t ∧ sum imm t)

/-- SUB and SUBI complete in every state with the difference modulo 65536 in rd, the borrow in C, signed overflow in V, Z and N
from the result, and nothing else changed but the count (42_arithmetic.md). D23, log entry 23; SUBI's flags are D7, log entry
7. -/
def Obligations.SubtractionsAreExact : Prop :=
  ∀ (rd rs : Reg) (imm : Word) (s : State),
    let difference := fun (b : Word) (t : State) =>
      (∃ v : Word, v.toNat = ((s.reg rd).toNat + 65536 - b.toNat) % 65536 ∧ RegisterWritten s t rd v) ∧
      (t.flags.c = true ↔ (s.reg rd).toNat < b.toNat) ∧
      (t.flags.v = true ↔ SignedOverflow ((s.reg rd).toInt - b.toInt))
    (∃ t, exec (.sub rd rs) s = .next t ∧ difference (s.reg rs) t) ∧
      (∃ t, exec (.subi rd imm) s = .next t ∧ difference imm t)

/-- CMP completes in every state and writes the flags of the subtraction alone: Z exactly on equality, C exactly on unsigned
below, V on signed overflow, N the sign of the wrapped difference; no register, no count, nothing else (42_arithmetic.md). That
the flag update counts nothing is the spec's decision D10 (log entry 10). -/
def Obligations.CompareWritesFlagsAlone : Prop :=
  ∀ (rd rs : Reg) (s : State),
    ∃ f : Flags, exec (.cmp rd rs) s = .next { s with flags := f } ∧
      (f.z = true ↔ s.reg rd = s.reg rs) ∧ (f.c = true ↔ (s.reg rd).toNat < (s.reg rs).toNat) ∧
      (f.v = true ↔ SignedOverflow ((s.reg rd).toInt - (s.reg rs).toInt)) ∧
      (f.n = true ↔ 32768 ≤ ((s.reg rd).toNat + 65536 - (s.reg rs).toNat) % 65536)

/-- MUL completes in every state with the low half of the unsigned product in rd, C telling whether the product needs more than
16 bits, V cleared, Z and N from the low half, and nothing else changed but the count (42_arithmetic.md; D23, log entry 23). -/
def Obligations.MultiplyKeepsTheLowHalf : Prop :=
  ∀ (rd rs : Reg) (s : State),
    ∃ t, exec (.mul rd rs) s = .next t ∧
      (∃ v : Word, v.toNat = (s.reg rd).toNat * (s.reg rs).toNat % 65536 ∧ RegisterWritten s t rd v) ∧
      (t.flags.c = true ↔ 65536 ≤ (s.reg rd).toNat * (s.reg rs).toNat) ∧ t.flags.v = false

/-- AND, OR, XOR and NOT complete in every state with the bitwise result in rd, C and V cleared, Z and N from the result, and
nothing else changed but the count (43_logic_shift.md). D23, log entry 23; NOT takes its operand from rs by the spec's decision
D4 (log entry 4). -/
def Obligations.LogicIsBitwiseAndClearsCarryAndOverflow : Prop :=
  ∀ (rd rs : Reg) (s : State),
    let logic := fun (i : Instr) (bit : Nat → Bool) =>
      ∃ t v, exec i s = .next t ∧ RegisterWritten s t rd v ∧ (∀ k, k < 16 → v.getLsbD k = bit k) ∧
        t.flags.c = false ∧ t.flags.v = false
    logic (.and rd rs) (fun k => (s.reg rd).getLsbD k && (s.reg rs).getLsbD k) ∧
      logic (.or rd rs) (fun k => (s.reg rd).getLsbD k || (s.reg rs).getLsbD k) ∧
      logic (.xor rd rs) (fun k => (s.reg rd).getLsbD k != (s.reg rs).getLsbD k) ∧
      logic (.not rd rs) (fun k => !(s.reg rs).getLsbD k)

/-- SHL completes in every state: with n the low 4 bits of rs's value, rd becomes rd times 2^n modulo 65536, C is the last bit
shifted out (bit 16 - n of the old value) and is kept when n = 0, V is cleared, Z and N from the result; the register is written
and counted also when n = 0 (43_logic_shift.md). The amount-0 case is the spec's decision D24 with conflict C3 (log entry 24);
D23, log entry 23. -/
def Obligations.ShiftLeftByTheLowFourBits : Prop :=
  ∀ (rd rs : Reg) (s : State),
    let n := (s.reg rs).toNat % 16
    ∃ t, exec (.shl rd rs) s = .next t ∧
      (∃ v : Word, v.toNat = (s.reg rd).toNat * 2 ^ n % 65536 ∧ RegisterWritten s t rd v) ∧
      (if n = 0 then t.flags.c = s.flags.c else (t.flags.c = true ↔ (s.reg rd).toNat / 2 ^ (16 - n) % 2 = 1)) ∧
      t.flags.v = false

/-- SHR completes in every state: with n the low 4 bits of rs's value, rd becomes rd divided by 2^n, C is the last bit shifted
out (bit n - 1 of the old value) and is kept when n = 0, V is cleared, Z and N from the result (43_logic_shift.md). The amount-0
case is the spec's decision D24 with conflict C3 (log entry 24); D23, log entry 23. -/
def Obligations.ShiftRightIsLogical : Prop :=
  ∀ (rd rs : Reg) (s : State),
    let n := (s.reg rs).toNat % 16
    ∃ t, exec (.shr rd rs) s = .next t ∧
      (∃ v : Word, v.toNat = (s.reg rd).toNat / 2 ^ n ∧ RegisterWritten s t rd v) ∧
      (if n = 0 then t.flags.c = s.flags.c else (t.flags.c = true ↔ (s.reg rd).toNat / 2 ^ (n - 1) % 2 = 1)) ∧
      t.flags.v = false

/-- LD_ABS and LD_IND complete in every state: the destination takes what the routed read of the effective address gives, Z and
N from it, C and V unchanged, nothing else but the count (45_load_store.md). A read of a window address with no read value gives
MMIO_READ_DEFAULT = 0, the spec's decision D11 (log entry 11); LD_IND's roles are D5 (log entry 5); that the memory read itself
counts nothing is D10 (log entry 10). -/
def Obligations.LoadsReadTheRoutedWord : Prop :=
  ∀ (rd rs : Reg) (addr : Word) (s : State),
    (∃ t, exec (.ldAbs rd addr) s = .next t ∧ RegisterWritten s t rd (routedValue s addr) ∧ t.flags.c = s.flags.c ∧
      t.flags.v = s.flags.v) ∧
    (∃ t, exec (.ldInd rd rs) s = .next t ∧ RegisterWritten s t rd (routedValue s (s.reg rs)) ∧ t.flags.c = s.flags.c ∧
      t.flags.v = s.flags.v)

/-- ST_ABS and ST_IND complete in every state with a canonical memory: the word is stored at the effective address, or the device
there is written; no register, no flag, no halt; one count (45_load_store.md, 20_memory.md section 4). ST_IND's roles are the
spec's decision D5 (log entry 5); the decimal text is D14 (log entry 14); that a write to a device, or to a window address
without one, counts too is D10 (log entry 10). -/
def Obligations.StoresWriteTheRoutedWord : Prop :=
  ∀ (rd rs : Reg) (addr : Word) (s : State), s.mem.wf →
    let store := fun (i : Instr) (a : Word) =>
      ∃ t, exec i s = .next t ∧ Stored s t a (s.reg rd) ∧ t.regs = s.regs ∧ t.flags = s.flags ∧ t.pc = s.pc ∧
        t.cyc = s.cyc + 1 ∧ ControlKept s t
    store (.stAbs rd addr) (absoluteAddress addr) ∧ store (.stInd rd rs) (indirectAddress s rs)

/-- PUSH completes in every state with a canonical memory: SP goes down by one (modulo 65536), the register's value, read after
the decrement, is stored at the new SP or written to the device there; no other register, no flag, one count (44_stack.md). PUSH
r7 stores the decremented SP by the spec's decision D13 (log entry 13); the silent SP update is D9 (log entry 9); the one count
also when the new SP lies in the window is D10 (log entry 10), the decimal text there D14 (log entry 14); the wrap of SP is D19
(log entry 19). -/
def Obligations.PushStoresBelowTheStackPointer : Prop :=
  ∀ (r : Reg) (s : State), s.mem.wf →
    ∃ t, exec (.push r) s = .next t ∧ t.sp = s.sp - 1 ∧ RegsKeptBut s t [.r7] ∧
      Stored s t (s.sp - 1) (if r = .r7 then s.sp - 1 else s.reg r) ∧ t.flags = s.flags ∧ t.pc = s.pc ∧
      t.cyc = s.cyc + 1 ∧ ControlKept s t

/-- POP completes in every state: the routed word at SP goes to rd with Z and N from it, then SP goes up by one; for POP r7 SP
ends as the popped value plus one (44_stack.md). D13, log entry 13; D9, log entry 9; a window read is D11, log entry 11; that
the read of the stack word counts nothing is D10, log entry 10; the wrap of SP is D19, log entry 19. -/
def Obligations.PopReadsThenRaisesTheStackPointer : Prop :=
  ∀ (rd : Reg) (s : State),
    ∃ t, exec (.pop rd) s = .next t ∧
      (rd ≠ .r7 → t.reg rd = routedValue s s.sp ∧ t.sp = s.sp + 1) ∧
      (rd = .r7 → t.sp = routedValue s s.sp + 1) ∧
      RegsKeptBut s t [rd, .r7] ∧ ZNOf t.flags (routedValue s s.sp) ∧ t.flags.c = s.flags.c ∧ t.flags.v = s.flags.v ∧
      t.pc = s.pc ∧ t.cyc = s.cyc + 1 ∧ RestKept s t

/-- The five jumps complete in every state and change pc alone: JMP always; JZ, JNZ, JC and JN exactly when Z is set, Z is
clear, C is set, N is set (46_control_transfer.md; the conditions are the spec's decision D8, log entry 8; that a change of pc
counts nothing is D10, log entry 10). -/
def Obligations.JumpsTestTheirFlag : Prop :=
  ∀ (addr : Word) (s : State),
    exec (.jmp addr) s = .next { s with pc := addr } ∧
      exec (.jz addr) s = .next { s with pc := if s.flags.z = true then addr else s.pc } ∧
      exec (.jnz addr) s = .next { s with pc := if s.flags.z = false then addr else s.pc } ∧
      exec (.jc addr) s = .next { s with pc := if s.flags.c = true then addr else s.pc } ∧
      exec (.jn addr) s = .next { s with pc := if s.flags.n = true then addr else s.pc }

/-- CALL completes in every state with a canonical memory: SP goes down by one, the post-fetch pc is stored there (or written to
the device there), pc becomes the target; no other register, no flag, one count (46_control_transfer.md; the silent SP update is
D9, log entry 9; the one count also when the return address goes to a device is D10, log entry 10, the decimal text there D14,
log entry 14; the wrap of SP is D19, log entry 19). -/
def Obligations.CallPushesThePostFetchPc : Prop :=
  ∀ (addr : Word) (s : State), s.mem.wf →
    ∃ t, exec (.call addr) s = .next t ∧ t.pc = addr ∧ t.sp = s.sp - 1 ∧ RegsKeptBut s t [.r7] ∧
      Stored s t (s.sp - 1) s.pc ∧ t.flags = s.flags ∧ t.cyc = s.cyc + 1 ∧ ControlKept s t

/-- RET completes in every state: pc becomes the routed word at SP and SP goes up by one; no flag, no count, nothing else
(46_control_transfer.md; D9, log entry 9; a window read is D11, log entry 11; that neither the read of the stack word nor the
change of pc counts is D10, log entry 10; the wrap of SP is D19, log entry 19). -/
def Obligations.ReturnPopsThePc : Prop :=
  ∀ s : State,
    ∃ t, exec .ret s = .next t ∧ t.pc = routedValue s s.sp ∧ t.sp = s.sp + 1 ∧ RegsKeptBut s t [.r7] ∧
      t.flags = s.flags ∧ t.cyc = s.cyc ∧ RestKept s t

/-- NOP changes nothing after its fetch and HALT sets the halted flag alone (47_system.md; NOP's meaning is the spec's decision
D29, log entry 29). -/
def Obligations.NopDoesNothingAndHaltHalts : Prop :=
  ∀ s : State, exec .nop s = .next s ∧ exec .halt s = .next { s with halted := true }

/-- The two undefined rows take the exception in every state: a report with the word's opcode field, the address before pc and
the word, and the halted flag; nothing else (60_exceptions.md section 1; the report's content is D18, log entry 18). -/
def Obligations.UndefinedOpcodesTakeTheException : Prop :=
  ∀ (w : Word) (s : State),
    let after : State :=
      { s with
        halted := true
        report := s.report ++
          [{ kind := .fatalOpcode, opcode := BitVec.ofNat 5 (w.toNat / 2048), addr := s.pc - 1, word := w }] }
    exec (.undefined30 w) s = .next after ∧ exec (.undefined31 w) s = .next after

/-- PUSH of a register other than r7, then (after the next fetch) POP into another than r7, copies the register and restores SP,
whenever the stack word is plain storage (44_stack.md, a rule the spec marks as derived). The silent SP updates, which leave Z
and N to the popped value, are the spec's decision D9 (log entry 9); the wrap of SP is D19 (log entry 19). -/
def Obligations.PushThenPopCopiesTheRegister : Prop :=
  ∀ (r d : Reg) (s t : State), s.mem.wf → r ≠ .r7 → d ≠ .r7 → (s.sp - 1).toNat < 0xFF00 →
    exec (.push r) s = .next t →
    ∃ u, exec (.pop d) (afterFetch t) = .next u ∧ u.reg d = s.reg r ∧ u.sp = s.sp ∧
      RegsKeptBut s u [d] ∧ ZNOf u.flags (s.reg r)

/-- A CALL at address A, then any run that comes to a RET with SP and the stacked word as the CALL left them: pc is A + 2 and SP
is what it was before the CALL (46_control_transfer.md, the pairing rule). The two fetches of the CALL have left pc = A + 2; the
stacked word lies in plain storage. The wrap of pc and SP is the spec's decision D19 (log entry 19). -/
def Obligations.CallThenReturnComesBack : Prop :=
  ∀ (addr callAt : Word) (s t u : State), s.mem.wf → s.pc = callAt + 2 → (s.sp - 1).toNat < 0xFF00 →
    exec (.call addr) s = .next t → u.sp = t.sp → u.mem.read t.sp = t.mem.read t.sp →
    ∃ v, exec .ret u = .next v ∧ v.pc = callAt + 2 ∧ v.sp = s.sp

/-- A store into plain storage, by any of the four storing instructions (ST_ABS, ST_IND, PUSH, CALL), is seen by the next fetch
of that address, with no barrier: in every state that has the memory the store left and stands at the stored address, the word
fetched is the word stored (20_memory.md section 6; the spec's decision D20, log entry 20). ST_IND's roles are D5 (log entry
5), the word PUSH r7 stores is D13 (log entry 13). -/
def Obligations.StoreIsSeenByTheNextFetch : Prop :=
  ∀ (i : Instr) (s t : State) (a : Word), s.mem.wf → storeAddress i s = some a → a.toNat < 0xFF00 →
    exec i s = .next t →
    ∃ v, storedWord i s = some v ∧ ∀ u : State, u.mem = t.mem → u.pc = a → fetchedWord u = v

/-! ## The devices -/

/-- A write to 0xFF00 appends exactly one byte, the low byte of the word, to the console, and changes nothing else but the
count of memory writes; the high byte is ignored (R52). -/
def Obligations.CharacterOutAppendsTheLowByte : Prop :=
  ∀ (s : State) (v : Word),
    ∃ b : Byte, b.toNat = v.toNat % 256 ∧
      memWrite s 0xFF00 v = { s with cyc := (memWrite s 0xFF00 v).cyc, out := s.out ++ [b] }

/-- A write to 0xFF20, the read-only cycle counter, changes nothing but the count of the write (20_memory.md section 4). That a
device write counts one is the spec's decision D10 (log entry 10). -/
def Obligations.CycleCounterWriteIsANoOp : Prop :=
  ∀ (s : State) (v : Word), memWrite s 0xFF20 v = { s with cyc := s.cyc + 1 }

/-- A write to 0xFF10 records the request and emits nothing by itself; the service step of the same instruction then emits the
string the backing array holds at that address and clears the request (20_memory.md section 4). The scan is the spec's decision
D15 (log entry 15), the count of the write D10 (log entry 10). -/
def Obligations.StringRequestIsServedByTheSameInstruction : Prop :=
  ∀ (s : State) (v : Word),
    memWrite s 0xFF10 v = { s with cyc := s.cyc + 1, pendValid := true, pendAddr := v } ∧
      ∀ bytes, stringEmit s.mem v = some bytes →
        serviceMmio (memWrite s 0xFF10 v) =
          .next { s with cyc := s.cyc + 1, pendValid := false, pendAddr := v, out := s.out ++ bytes }

/-- What the decimal device emits for `v`: one to five ASCII digits whose number is `v`, without a leading zero unless `v` is 0,
then one line break (20_memory.md section 4; unsigned, the digit codes and 0x0A are the spec's decision D14, log entry 14). -/
def Obligations.DecimalOutIsTheUnsignedNumber : Prop :=
  ∀ v : Word,
    ∃ digits : List Byte, decimalText v = digits ++ [0x0A] ∧ digits ≠ [] ∧ digits.length ≤ 5 ∧
      (∀ d ∈ digits, 0x30 ≤ d.toNat ∧ d.toNat ≤ 0x39) ∧ digitsValue digits = v.toNat ∧
      (v.toNat ≠ 0 → digits.head? ≠ some 0x30) ∧ (v.toNat = 0 → digits = [0x30])

/-- The string device emits exactly the low bytes of the words from the start address up to the first zero word, one a word, the
address wrapping modulo 65536; it never ends exactly when no word of the array is zero (20_memory.md section 4; the spec's
decisions D15 and D27, log entries 15 and 27). -/
def Obligations.StringEmitScansToTheFirstZeroWord : Prop :=
  ∀ (m : Memory) (a0 : Word),
    (∀ bytes : List Byte, stringEmit m a0 = some bytes ↔
      bytes.length < 65536 ∧ m.read (a0 + BitVec.ofNat 16 bytes.length) = 0 ∧
        ∀ k (h : k < bytes.length), m.read (a0 + BitVec.ofNat 16 k) ≠ 0 ∧
          bytes[k].toNat = (m.read (a0 + BitVec.ofNat 16 k)).toNat % 256) ∧
    (stringEmit m a0 = none ↔ ∀ a : Word, m.read a ≠ 0)

/-- A load of 0xFF20 sees the count of its own fetches and not of its register write: LD_ABS two, LD_IND one (20_memory.md
section 4, a rule the spec marks as derived; the counts are D10, log entry 10; LD_IND's roles D5, log entry 5). -/
def Obligations.CycleCounterLoadSeesItsOwnFetches : Prop :=
  (∀ (s t : State) (rd : Reg), s.halted = false → AtBoundary s → fetchInstr s = (.ldAbs rd 0xFF20, afterFetch (afterFetch s)) →
    step s = .next t → t.reg rd = BitVec.ofNat 16 (s.cyc.toNat + 2) ∧ t.cyc = s.cyc + 3) ∧
  (∀ (s t : State) (rd rs : Reg), s.halted = false → AtBoundary s → fetchInstr s = (.ldInd rd rs, afterFetch s) →
    s.reg rs = 0xFF20 → step s = .next t → t.reg rd = BitVec.ofNat 16 (s.cyc.toNat + 1) ∧ t.cyc = s.cyc + 2)

/-! ## The host's side -/

/-- Power-on gives every piece of state its value, whatever was there: registers zero but SP = 0xF000, pc 0, flags clear,
Running, counter 0, every memory word 0, nothing pending, both streams empty (10_state.md section 8, 70_reset_and_hazards.md
section 1; the pending request's values are the spec's decision D16, log entry 16, and the streams as state D25, log entry 25).
-/
def Obligations.PowerOnGivesEveryValue : Prop :=
  ∀ s : State,
    let t := powerOn s
    t = State.reset ∧ (∀ r, t.reg r = if r = .r7 then 0xF000 else 0) ∧ t.pc = 0 ∧
      t.flags = { z := false, n := false, c := false, v := false } ∧ t.halted = false ∧ t.cyc = 0 ∧
      (∀ a : Word, t.mem.read a = 0) ∧ t.pendValid = false ∧ t.pendAddr = 0 ∧ t.out = [] ∧ t.report = []

/-- A later `reset()` gives the CPU state its reset values and keeps memory and both output streams (70_reset_and_hazards.md
section 1; the spec's decisions D16 and D25, log entries 16 and 25). -/
def Obligations.ResetKeepsMemoryAndStreams : Prop :=
  ∀ s : State, hostReset s = { State.reset with mem := s.mem, out := s.out, report := s.report }

/-- `load` puts the image into the backing array from `base` upward, window cells included, and changes nothing else; an image
that would run past 0xFFFF is refused (70_reset_and_hazards.md section 2; the spec's decision D17, log entry 17). -/
def Obligations.LoadWritesTheImageAlone : Prop :=
  ∀ (image : List Word) (base : Word) (s : State), s.mem.wf →
    (base.toNat + image.length ≤ 65536 →
      ∃ m : Memory, load image base s = .next { s with mem := m } ∧ m.wf ∧
        (∀ k (h : k < image.length), m.read (base + BitVec.ofNat 16 k) = image[k]) ∧
        (∀ a : Word, a.toNat < base.toNat ∨ base.toNat + image.length ≤ a.toNat → m.read a = s.mem.read a)) ∧
    (65536 < base.toNat + image.length → load image base s = .refused .loadPastEnd)

/-- A run that has ended is Halted, and more fuel does not change how it ended (40_execution_cycle.md section 1,
70_reset_and_hazards.md section 4). -/
def Obligations.RunEndsOnlyHalted : Prop :=
  ∀ (fuel more : Nat) (s t : State), run fuel s = .ended t → t.halted = true ∧ run (fuel + more) s = .ended t

/-- A binary image is read back word for word: two bytes a word, low byte first; an odd last byte is the low byte of a final
word whose high byte is 0 (30_encoding.md section 5; the odd case is the spec's decision D26 with conflict C4, log entry 26). -/
def Obligations.ImageBytesReadBack : Prop :=
  ∀ (ws : List Word) (b : Byte),
    wordsOfBytes (bytesOfWords ws) = ws ∧ (bytesOfWords ws).length = 2 * ws.length ∧
      wordsOfBytes (bytesOfWords ws ++ [b]) = ws ++ [BitVec.ofNat 16 b.toNat] ∧
      ∀ k (h : k < ws.length),
        (bytesOfWords ws)[2 * k]?.map BitVec.toNat = some (ws[k].toNat % 256) ∧
          (bytesOfWords ws)[2 * k + 1]?.map BitVec.toNat = some (ws[k].toNat / 256)

/-- Whatever instruction line the assembler accepts emits words that decode to exactly the instruction the table of R91 gives
the line, every operand in its place, with nothing left over and nothing taken from what follows; its opcode is the mnemonic's
own, for LD and ST one of the two. And every line the table has is accepted, with that instruction's encoding
(30_encoding.md section 4, S10 of 95_test_vectors.md). The operand order is the spec's decision D22 (log entry 22), the numbers
are D1 (log entry 1), PUSH's field D3 (log entry 3). -/
def Obligations.AssembledLinesDecodeToTheirMnemonic : Prop :=
  ∀ (m : Assembler.Mnemonic) (os : List Assembler.Operand) (ls : Assembler.Labels),
    (∀ (ai : Assembler.AsmInstr) (ws rest : List Word),
      Assembler.instrLine m os = some ai → Assembler.lineWords ls (.instr ai) = .ok ws →
      ws.length = Assembler.lineSize (.instr ai) ∧
        ∃ i op, sourceInstr ls m os = some i ∧ decode (ws ++ rest) = .ok (i, rest) ∧ opcodeOf i = some op ∧
          op ∈ opcodesOfMnemonic m) ∧
    (∀ i : Instr, sourceInstr ls m os = some i →
      ∃ ai, Assembler.instrLine m os = some ai ∧ Assembler.lineWords ls (.instr ai) = .ok (encode i))
end

