-- ==== Sys2Proof/Laws/Assembler.lean ====
section
/-! SUPPORT. What one line does to the assembler's location counter and labels, and that the two passes agree on it. -/

namespace Sys2Proof.Machine.Assembler

/-- `.org` alone sets the location counter, to the value its operand stands for (R87, R90). -/
theorem nextLocation_org {above : Labels} {loc n : Nat} {v : Value} :
    nextLocation above loc (.org v) = .ok n ↔ ∃ a, resolve above v = .ok a ∧ n = a.toNat := by
  cases h : resolve above v <;> simp [nextLocation, h, eq_comm]

/-- Everything `advance` can do when it goes on: the next location, inside the image, and the line's label (R86, R87, R94). -/
theorem advance_ok {above above' : Labels} {loc next : Nat} {l : Line} (h : advance above loc l = .ok (next, above')) :
    nextLocation above loc l = .ok next ∧ next ≤ 65536 ∧ labelBeyondEnd loc l = false ∧ above' = bindLabel above loc l := by
  unfold advance at h
  split at h
  · cases h
  · rename_i n e
    split at h
    · cases h
    · rename_i hb
      simp only [Except.ok.injEq, Prod.mk.injEq] at h
      obtain ⟨rfl, rfl⟩ := h
      simp only [not_or, Bool.not_eq_true] at hb
      exact ⟨e, by omega, hb.2, rfl⟩

/-- Where pass 1 goes through and every line has its words, pass 2 goes through: the two passes place the lines alike (R94). -/
theorem emitLines_ok {ls : Labels} (lines : List Line) (hw : ∀ l ∈ lines, ∃ ws, lineWords ls l = .ok ws) :
    ∀ (loc : Nat) (above final : Labels) (image : List Word), collectLabels loc above lines = .ok final →
      ∃ out, emitLines ls loc above image lines = .ok out := by
  induction lines with
  | nil => exact fun _ _ _ image _ => ⟨image, rfl⟩
  | cons l rest ih =>
    intro loc above final image h
    obtain ⟨ws, e⟩ := hw l (by simp)
    simp only [collectLabels] at h
    simp only [emitLines, e]
    split at h
    · cases h
    · rename_i next above' ea
      simp only [ea]
      exact ih (fun l hl => hw l (List.mem_cons_of_mem _ hl)) next above' final (storeWords image loc ws) h

end Sys2Proof.Machine.Assembler
end

