-- ==== Sys2Proof/Laws/Decode.lean ====
section
/-! SUPPORT. The small lemmas of the decoder and the encoder: the fields of an encoded first word and the opcode map. -/

namespace Sys2Proof

@[simp] theorem params_pushField : Machine.params.pushField = .rd := rfl

/-- The opcode map is read back by the decoder's look-up. -/
@[simp] theorem opcodeAt_opcodeMap (op : Opcode) : opcodeAt (opcodeMap op) = some op := by
  cases op <;> rfl

/-- The look-up finds an opcode exactly where the map puts it. -/
theorem opcodeAt_eq_some {n : BitVec 5} {op : Opcode} (h : opcodeAt n = some op) : opcodeMap op = n := by
  have := List.find?_some h
  simpa using this

/-- The look-up fails on 30 and 31 alone (R79). -/
theorem opcodeAt_eq_none {n : BitVec 5} : opcodeAt n = none ↔ n = 30#5 ∨ n = 31#5 := by
  revert n; decide

/-- A register is read back from its number as a field. -/
@[simp] theorem regOfField_regNumber (r : Reg) : regOfField (BitVec.ofNat 3 (regNumber r)) = r := by
  cases r <;> rfl

theorem regNumber_lt (r : Reg) : regNumber r < 8 := by cases r <;> decide

/-- The value of a first word with register numbers in range. -/
theorem firstWord_toNat (op : Opcode) {rd rs : Nat} (hd : rd < 8) (hs : rs < 8) :
    (firstWord op rd rs).toNat = (opcodeMap op).toNat * 2048 + rd * 256 + rs * 32 := by
  have := (opcodeMap op).isLt
  simp only [firstWord, BitVec.toNat_ofNat]
  omega

@[simp] theorem opcodeField_toNat (w : Word) : (opcodeField w).toNat = w.toNat / 2048 := by
  have := w.isLt
  simp [opcodeField, BitVec.extractLsb'_toNat, Nat.shiftRight_eq_div_pow]
  omega

@[simp] theorem rdField_toNat (w : Word) : (rdField w).toNat = w.toNat / 256 % 8 := by
  simp [rdField, BitVec.extractLsb'_toNat, Nat.shiftRight_eq_div_pow]

@[simp] theorem rsField_toNat (w : Word) : (rsField w).toNat = w.toNat / 32 % 8 := by
  simp [rsField, BitVec.extractLsb'_toNat, Nat.shiftRight_eq_div_pow]

/-- The opcode field of an encoded first word. -/
theorem opcodeField_firstWord (op : Opcode) {rd rs : Nat} (hd : rd < 8) (hs : rs < 8) :
    opcodeField (firstWord op rd rs) = opcodeMap op := by
  have := (opcodeMap op).isLt
  apply BitVec.eq_of_toNat_eq
  rw [opcodeField_toNat, firstWord_toNat op hd hs]
  omega

/-- The rd field of an encoded first word. -/
theorem rdField_firstWord (op : Opcode) {rd rs : Nat} (hd : rd < 8) (hs : rs < 8) :
    rdField (firstWord op rd rs) = BitVec.ofNat 3 rd := by
  apply BitVec.eq_of_toNat_eq
  rw [rdField_toNat, firstWord_toNat op hd hs, BitVec.toNat_ofNat]
  omega

/-- The rs field of an encoded first word. -/
theorem rsField_firstWord (op : Opcode) {rd rs : Nat} (hd : rd < 8) (hs : rs < 8) :
    rsField (firstWord op rd rs) = BitVec.ofNat 3 rs := by
  apply BitVec.eq_of_toNat_eq
  rw [rsField_toNat, firstWord_toNat op hd hs, BitVec.toNat_ofNat]
  omega

/-- Two first words with one opcode field ask for the same number of words (R76). -/
theorem needsSecondWord_congr {w w' : Word} (h : opcodeField w = opcodeField w') :
    needsSecondWord w = needsSecondWord w' := by
  simp [needsSecondWord, h]

end Sys2Proof
end

