-- ==== Sys2Proof/Laws/Memory.lean ====
section
/-! SUPPORT. The laws of the memory array: reading after writing, what a write leaves alone, and the canonical form. -/

namespace Sys2Proof.Machine

/-! ### Bytes -/

/-- A byte written leaves every other byte alone, whatever the memory. -/
theorem Memory.byteAt_setByte_of_ne (m : Memory) {k j : Nat} (b : Byte) (h : j ≠ k) :
    (m.setByte k b).byteAt j = m.byteAt j := by
  induction m with
  | nil => by_cases hb : b = 0#8 <;> simp [Memory.setByte, Memory.byteAt, hb, Ne.symm h]
  | cons cell rest ih =>
    rcases lt_trichotomy cell.1 k with hk | hk | hk
    · simp [Memory.setByte, Memory.byteAt, hk, ih]
    · subst hk
      by_cases hb : b = 0#8 <;> simp [Memory.setByte, Memory.byteAt, hb, Ne.symm h]
    · have h1 : ¬ cell.1 < k := by omega
      have h2 : cell.1 ≠ k := by omega
      by_cases hb : b = 0#8 <;> simp [Memory.setByte, Memory.byteAt, hb, h1, h2, Ne.symm h]

/-- A byte below every listed address reads as 0. -/
theorem Memory.byteAt_of_lt (m : Memory) {k : Nat} (h : ∀ c ∈ m, k < c.1) : m.byteAt k = 0 := by
  induction m with
  | nil => rfl
  | cons cell rest ih =>
    have hk : cell.1 ≠ k := by have := h cell (by simp); omega
    simp [Memory.byteAt, hk, ih (fun c hc => h c (by simp [hc]))]

theorem Memory.wf_tail {cell : Host.Cell} {rest : Memory} (h : Memory.wf (cell :: rest)) : Memory.wf rest :=
  ⟨(List.pairwise_cons.1 h.1).2, fun c hc => h.2 c (by simp [hc])⟩

theorem Memory.wf_head {cell : Host.Cell} {rest : Memory} (h : Memory.wf (cell :: rest)) :
    ∀ c ∈ rest, cell.1 < c.1 := (List.pairwise_cons.1 h.1).1

/-- A byte written reads back. -/
theorem Memory.byteAt_setByte_self (m : Memory) (k : Nat) (b : Byte) (h : m.wf) :
    (m.setByte k b).byteAt k = b := by
  induction m with
  | nil => by_cases hb : b = 0#8 <;> simp [Memory.setByte, Memory.byteAt, hb]
  | cons cell rest ih =>
    rcases lt_trichotomy cell.1 k with hk | hk | hk
    · simp [Memory.setByte, Memory.byteAt, hk, hk.ne, ih (Memory.wf_tail h)]
    · subst hk
      by_cases hb : b = 0#8
      · simp [Memory.setByte, hb, Memory.byteAt_of_lt rest (Memory.wf_head h)]
      · simp [Memory.setByte, Memory.byteAt, hb]
    · have h1 : ¬ cell.1 < k := by omega
      have h2 : cell.1 ≠ k := by omega
      by_cases hb : b = 0#8
      · have hr : ∀ c ∈ rest, k < c.1 := fun c hc => lt_trans hk (Memory.wf_head h c hc)
        simp [Memory.setByte, Memory.byteAt, hb, h1, h2, Memory.byteAt_of_lt rest hr]
      · simp [Memory.setByte, Memory.byteAt, hb, h1, h2]

/-- What is listed after a byte is written was listed before, or is that byte. -/
theorem Memory.mem_setByte {m : Memory} {k : Nat} {b : Byte} {c : Host.Cell} (h : c ∈ m.setByte k b) :
    c ∈ m ∨ (c = (k, b) ∧ b ≠ 0#8) := by
  induction m with
  | nil =>
    by_cases hb : b = 0#8 <;> simp [Memory.setByte, hb] at h ⊢
    exact h
  | cons cell rest ih =>
    rcases lt_trichotomy cell.1 k with hk | hk | hk
    · simp only [Memory.setByte, hk, if_true, List.mem_cons] at h
      rcases h with h | h
      · simp [h]
      · rcases ih h with h | h <;> simp [h]
    · subst hk
      by_cases hb : b = 0#8 <;> simp [Memory.setByte, hb] at h ⊢ <;> tauto
    · have h1 : ¬ cell.1 < k := by omega
      have h2 : cell.1 ≠ k := by omega
      by_cases hb : b = 0#8 <;> simp [Memory.setByte, hb, h1, h2] at h ⊢ <;> tauto

/-- Writing a byte keeps the canonical form. -/
theorem Memory.setByte_wf (m : Memory) (k : Nat) (b : Byte) (h : m.wf) (hk : k < memoryBytes) :
    (m.setByte k b).wf := by
  refine ⟨?_, fun c hc => ?_⟩
  · induction m with
    | nil => by_cases hb : b = 0#8 <;> simp [Memory.setByte, hb]
    | cons cell rest ih =>
      have hr := List.pairwise_cons.1 h.1
      rcases lt_trichotomy cell.1 k with hlt | heq | hgt
      · simp only [Memory.setByte, hlt, if_true, List.pairwise_cons]
        refine ⟨fun c hc => ?_, ih (Memory.wf_tail h)⟩
        rcases Memory.mem_setByte hc with hc | ⟨rfl, _⟩
        · exact hr.1 c hc
        · exact hlt
      · subst heq
        by_cases hb : b = 0#8
        · simpa [Memory.setByte, hb] using hr.2
        · simpa [Memory.setByte, hb] using hr
      · have h1 : ¬ cell.1 < k := by omega
        have h2 : cell.1 ≠ k := by omega
        by_cases hb : b = 0#8
        · simpa [Memory.setByte, hb, h1, h2] using h.1
        · simp only [Memory.setByte, h1, h2, if_false, hb, List.pairwise_cons, List.mem_cons]
          refine ⟨fun c hc => ?_, hr⟩
          rcases hc with rfl | hc
          · exact hgt
          · exact lt_trans hgt (hr.1 c hc)
  · rcases Memory.mem_setByte hc with hc | ⟨rfl, hb⟩
    · exact h.2 c hc
    · exact ⟨hb, hk⟩

/-- Two memories in canonical form that read alike, byte for byte, are equal. -/
theorem Memory.eq_of_byteAt {m m' : Memory} (h : m.wf) (h' : m'.wf) (e : ∀ k, m.byteAt k = m'.byteAt k) : m = m' := by
  induction m generalizing m' with
  | nil =>
    cases m' with
    | nil => rfl
    | cons c' r' =>
      have := e c'.1
      simp [Memory.byteAt] at this
      exact absurd this.symm (h'.2 c' (by simp)).1
  | cons c r ih =>
    cases m' with
    | nil =>
      have := e c.1
      simp [Memory.byteAt] at this
      exact absurd this (h.2 c (by simp)).1
    | cons c' r' =>
      have hc : c.1 = c'.1 := by
        rcases lt_trichotomy c.1 c'.1 with hl | hl | hl
        · have hz := Memory.byteAt_of_lt (c' :: r') (k := c.1) (by
            intro d hd
            rcases List.mem_cons.1 hd with rfl | hd
            · exact hl
            · exact lt_trans hl (Memory.wf_head h' d hd))
          have := e c.1
          rw [hz] at this
          simp [Memory.byteAt] at this
          exact absurd this (h.2 c (by simp)).1
        · exact hl
        · have hz := Memory.byteAt_of_lt (c :: r) (k := c'.1) (by
            intro d hd
            rcases List.mem_cons.1 hd with rfl | hd
            · exact hl
            · exact lt_trans hl (Memory.wf_head h d hd))
          have := e c'.1
          rw [hz] at this
          simp [Memory.byteAt] at this
          exact absurd this.symm (h'.2 c' (by simp)).1
      have hv : c.2 = c'.2 := by
        have := e c.1
        simpa [Memory.byteAt, hc] using this
      have hcc : c = c' := Prod.ext hc hv
      subst hcc
      have hr : r = r' := ih (Memory.wf_tail h) (Memory.wf_tail h') (fun k => by
        by_cases hk : c.1 = k
        · subst hk
          rw [Memory.byteAt_of_lt r (Memory.wf_head h), Memory.byteAt_of_lt r' (Memory.wf_head h')]
        · have := e k
          simpa [Memory.byteAt, hk] using this)
      rw [hr]

/-! ### Words -/

/-- Writing a word leaves every byte but its own two alone, whatever the memory. -/
theorem Memory.byteAt_write_of_ne (m : Memory) (a v : Word) {k : Nat} (h0 : k ≠ 2 * a.toNat)
    (h1 : k ≠ 2 * a.toNat + 1) : (m.write a v).byteAt k = m.byteAt k := by
  simp [Memory.write, Memory.byteAt_setByte_of_ne, h0, h1]

/-- Writing a word keeps the canonical form. -/
theorem Memory.write_wf (m : Memory) (a v : Word) (h : m.wf) : (m.write a v).wf := by
  have ha := a.isLt
  exact Memory.setByte_wf _ _ _ (Memory.setByte_wf _ _ _ h (by simp [memoryBytes]; omega)) (by simp [memoryBytes]; omega)

/-- A word written reads back. -/
theorem Memory.read_write_self (m : Memory) (a v : Word) (h : m.wf) : (m.write a v).read a = v := by
  have ha := a.isLt
  have hv := v.isLt
  have hw : (m.setByte (2 * a.toNat) (BitVec.ofNat 8 v.toNat)).wf :=
    Memory.setByte_wf _ _ _ h (by simp [memoryBytes]; omega)
  apply BitVec.eq_of_toNat_eq
  simp only [Memory.read, Memory.write, Memory.byteAt_setByte_self _ _ _ hw]
  rw [Memory.byteAt_setByte_of_ne _ _ (by omega), Memory.byteAt_setByte_self _ _ _ h]
  simp only [BitVec.toNat_ofNat]
  omega

/-- Writing a word leaves every other word alone, whatever the memory. -/
theorem Memory.read_write_of_ne (m : Memory) {a b : Word} (v : Word) (h : b ≠ a) :
    (m.write a v).read b = m.read b := by
  have hn : b.toNat ≠ a.toNat := fun e => h (BitVec.eq_of_toNat_eq e)
  simp only [Memory.read]
  rw [Memory.byteAt_write_of_ne _ _ _ (by omega) (by omega), Memory.byteAt_write_of_ne _ _ _ (by omega) (by omega)]

/-- Reading any word after writing one. -/
theorem Memory.read_write (m : Memory) (a b v : Word) (h : m.wf) :
    (m.write a v).read b = if b = a then v else m.read b := by
  split
  · next e => subst e; exact Memory.read_write_self m b v h
  · next e => exact Memory.read_write_of_ne m v e

/-- Memories that agree byte for byte agree word for word. -/
theorem Memory.read_congr {m m' : Memory} (e : ∀ k, m.byteAt k = m'.byteAt k) (a : Word) : m.read a = m'.read a := by
  simp [Memory.read, e]

/-- The empty memory reads 0 everywhere (R231). -/
@[simp] theorem Memory.read_nil (a : Word) : Memory.read [] a = 0 := rfl

/-- Loading an image keeps the canonical form. -/
theorem Memory.loadWords_wf (ws : List Word) (m : Memory) (base : Nat) (h : m.wf) : (loadWords m base ws).wf := by
  induction ws generalizing m base with
  | nil => exact h
  | cons w rest ih => exact ih _ _ (Memory.write_wf _ _ _ h)

/-- The memory of the reset state has the canonical form. -/
theorem State.reset_mem_wf : State.reset.mem.wf := by decide

end Sys2Proof.Machine
end

