-- ==== Sys2Proof/Laws/State.lean ====
section
/-! SUPPORT. One lemma per field per update of the state. -/

namespace Sys2Proof.Machine

/-! ### setReg -/

@[simp] theorem State.setReg_regs (s : State) (r : Reg) (w : Word) : (s.setReg r w).regs = s.regs.set r w := rfl
@[simp] theorem State.setReg_pc (s : State) (r : Reg) (w : Word) : (s.setReg r w).pc = s.pc := rfl
@[simp] theorem State.setReg_flags (s : State) (r : Reg) (w : Word) : (s.setReg r w).flags = s.flags := rfl
@[simp] theorem State.setReg_halted (s : State) (r : Reg) (w : Word) : (s.setReg r w).halted = s.halted := rfl
@[simp] theorem State.setReg_cyc (s : State) (r : Reg) (w : Word) : (s.setReg r w).cyc = s.cyc := rfl
@[simp] theorem State.setReg_mem (s : State) (r : Reg) (w : Word) : (s.setReg r w).mem = s.mem := rfl
@[simp] theorem State.setReg_pendValid (s : State) (r : Reg) (w : Word) : (s.setReg r w).pendValid = s.pendValid := rfl
@[simp] theorem State.setReg_pendAddr (s : State) (r : Reg) (w : Word) : (s.setReg r w).pendAddr = s.pendAddr := rfl
@[simp] theorem State.setReg_out (s : State) (r : Reg) (w : Word) : (s.setReg r w).out = s.out := rfl
@[simp] theorem State.setReg_report (s : State) (r : Reg) (w : Word) : (s.setReg r w).report = s.report := rfl

/-! ### setPc -/

@[simp] theorem State.setPc_regs (s : State) (w : Word) : (s.setPc w).regs = s.regs := rfl
@[simp] theorem State.setPc_pc (s : State) (w : Word) : (s.setPc w).pc = w := rfl
@[simp] theorem State.setPc_flags (s : State) (w : Word) : (s.setPc w).flags = s.flags := rfl
@[simp] theorem State.setPc_halted (s : State) (w : Word) : (s.setPc w).halted = s.halted := rfl
@[simp] theorem State.setPc_cyc (s : State) (w : Word) : (s.setPc w).cyc = s.cyc := rfl
@[simp] theorem State.setPc_mem (s : State) (w : Word) : (s.setPc w).mem = s.mem := rfl
@[simp] theorem State.setPc_pendValid (s : State) (w : Word) : (s.setPc w).pendValid = s.pendValid := rfl
@[simp] theorem State.setPc_pendAddr (s : State) (w : Word) : (s.setPc w).pendAddr = s.pendAddr := rfl
@[simp] theorem State.setPc_out (s : State) (w : Word) : (s.setPc w).out = s.out := rfl
@[simp] theorem State.setPc_report (s : State) (w : Word) : (s.setPc w).report = s.report := rfl
@[simp] theorem State.setPc_reg (s : State) (w : Word) (r : Reg) : (s.setPc w).reg r = s.reg r := rfl
@[simp] theorem State.setPc_sp (s : State) (w : Word) : (s.setPc w).sp = s.sp := rfl

/-! ### setFlags -/

@[simp] theorem State.setFlags_regs (s : State) (f : Flags) : (s.setFlags f).regs = s.regs := rfl
@[simp] theorem State.setFlags_pc (s : State) (f : Flags) : (s.setFlags f).pc = s.pc := rfl
@[simp] theorem State.setFlags_flags (s : State) (f : Flags) : (s.setFlags f).flags = f := rfl
@[simp] theorem State.setFlags_halted (s : State) (f : Flags) : (s.setFlags f).halted = s.halted := rfl
@[simp] theorem State.setFlags_cyc (s : State) (f : Flags) : (s.setFlags f).cyc = s.cyc := rfl
@[simp] theorem State.setFlags_mem (s : State) (f : Flags) : (s.setFlags f).mem = s.mem := rfl
@[simp] theorem State.setFlags_pendValid (s : State) (f : Flags) : (s.setFlags f).pendValid = s.pendValid := rfl
@[simp] theorem State.setFlags_pendAddr (s : State) (f : Flags) : (s.setFlags f).pendAddr = s.pendAddr := rfl
@[simp] theorem State.setFlags_out (s : State) (f : Flags) : (s.setFlags f).out = s.out := rfl
@[simp] theorem State.setFlags_report (s : State) (f : Flags) : (s.setFlags f).report = s.report := rfl
@[simp] theorem State.setFlags_reg (s : State) (f : Flags) (r : Reg) : (s.setFlags f).reg r = s.reg r := rfl
@[simp] theorem State.setFlags_sp (s : State) (f : Flags) : (s.setFlags f).sp = s.sp := rfl

/-! ### addCyc -/

@[simp] theorem State.addCyc_regs (s : State) (k : BitVec 64) : (s.addCyc k).regs = s.regs := rfl
@[simp] theorem State.addCyc_pc (s : State) (k : BitVec 64) : (s.addCyc k).pc = s.pc := rfl
@[simp] theorem State.addCyc_flags (s : State) (k : BitVec 64) : (s.addCyc k).flags = s.flags := rfl
@[simp] theorem State.addCyc_halted (s : State) (k : BitVec 64) : (s.addCyc k).halted = s.halted := rfl
@[simp] theorem State.addCyc_cyc (s : State) (k : BitVec 64) : (s.addCyc k).cyc = s.cyc + k := rfl
@[simp] theorem State.addCyc_mem (s : State) (k : BitVec 64) : (s.addCyc k).mem = s.mem := rfl
@[simp] theorem State.addCyc_pendValid (s : State) (k : BitVec 64) : (s.addCyc k).pendValid = s.pendValid := rfl
@[simp] theorem State.addCyc_pendAddr (s : State) (k : BitVec 64) : (s.addCyc k).pendAddr = s.pendAddr := rfl
@[simp] theorem State.addCyc_out (s : State) (k : BitVec 64) : (s.addCyc k).out = s.out := rfl
@[simp] theorem State.addCyc_report (s : State) (k : BitVec 64) : (s.addCyc k).report = s.report := rfl
@[simp] theorem State.addCyc_reg (s : State) (k : BitVec 64) (r : Reg) : (s.addCyc k).reg r = s.reg r := rfl
@[simp] theorem State.addCyc_sp (s : State) (k : BitVec 64) : (s.addCyc k).sp = s.sp := rfl

/-! ### setMem -/

@[simp] theorem State.setMem_regs (s : State) (m : Memory) : (s.setMem m).regs = s.regs := rfl
@[simp] theorem State.setMem_pc (s : State) (m : Memory) : (s.setMem m).pc = s.pc := rfl
@[simp] theorem State.setMem_flags (s : State) (m : Memory) : (s.setMem m).flags = s.flags := rfl
@[simp] theorem State.setMem_halted (s : State) (m : Memory) : (s.setMem m).halted = s.halted := rfl
@[simp] theorem State.setMem_cyc (s : State) (m : Memory) : (s.setMem m).cyc = s.cyc := rfl
@[simp] theorem State.setMem_mem (s : State) (m : Memory) : (s.setMem m).mem = m := rfl
@[simp] theorem State.setMem_pendValid (s : State) (m : Memory) : (s.setMem m).pendValid = s.pendValid := rfl
@[simp] theorem State.setMem_pendAddr (s : State) (m : Memory) : (s.setMem m).pendAddr = s.pendAddr := rfl
@[simp] theorem State.setMem_out (s : State) (m : Memory) : (s.setMem m).out = s.out := rfl
@[simp] theorem State.setMem_report (s : State) (m : Memory) : (s.setMem m).report = s.report := rfl
@[simp] theorem State.setMem_reg (s : State) (m : Memory) (r : Reg) : (s.setMem m).reg r = s.reg r := rfl
@[simp] theorem State.setMem_sp (s : State) (m : Memory) : (s.setMem m).sp = s.sp := rfl

/-! ### setHalted -/

@[simp] theorem State.setHalted_regs (s : State) (b : Bool) : (s.setHalted b).regs = s.regs := rfl
@[simp] theorem State.setHalted_pc (s : State) (b : Bool) : (s.setHalted b).pc = s.pc := rfl
@[simp] theorem State.setHalted_flags (s : State) (b : Bool) : (s.setHalted b).flags = s.flags := rfl
@[simp] theorem State.setHalted_halted (s : State) (b : Bool) : (s.setHalted b).halted = b := rfl
@[simp] theorem State.setHalted_cyc (s : State) (b : Bool) : (s.setHalted b).cyc = s.cyc := rfl
@[simp] theorem State.setHalted_mem (s : State) (b : Bool) : (s.setHalted b).mem = s.mem := rfl
@[simp] theorem State.setHalted_pendValid (s : State) (b : Bool) : (s.setHalted b).pendValid = s.pendValid := rfl
@[simp] theorem State.setHalted_pendAddr (s : State) (b : Bool) : (s.setHalted b).pendAddr = s.pendAddr := rfl
@[simp] theorem State.setHalted_out (s : State) (b : Bool) : (s.setHalted b).out = s.out := rfl
@[simp] theorem State.setHalted_report (s : State) (b : Bool) : (s.setHalted b).report = s.report := rfl
@[simp] theorem State.setHalted_reg (s : State) (b : Bool) (r : Reg) : (s.setHalted b).reg r = s.reg r := rfl
@[simp] theorem State.setHalted_sp (s : State) (b : Bool) : (s.setHalted b).sp = s.sp := rfl

/-! ### requestString -/

@[simp] theorem State.requestString_regs (s : State) (a : Word) : (s.requestString a).regs = s.regs := rfl
@[simp] theorem State.requestString_pc (s : State) (a : Word) : (s.requestString a).pc = s.pc := rfl
@[simp] theorem State.requestString_flags (s : State) (a : Word) : (s.requestString a).flags = s.flags := rfl
@[simp] theorem State.requestString_halted (s : State) (a : Word) : (s.requestString a).halted = s.halted := rfl
@[simp] theorem State.requestString_cyc (s : State) (a : Word) : (s.requestString a).cyc = s.cyc := rfl
@[simp] theorem State.requestString_mem (s : State) (a : Word) : (s.requestString a).mem = s.mem := rfl
@[simp] theorem State.requestString_pendValid (s : State) (a : Word) : (s.requestString a).pendValid = true := rfl
@[simp] theorem State.requestString_pendAddr (s : State) (a : Word) : (s.requestString a).pendAddr = a := rfl
@[simp] theorem State.requestString_out (s : State) (a : Word) : (s.requestString a).out = s.out := rfl
@[simp] theorem State.requestString_report (s : State) (a : Word) : (s.requestString a).report = s.report := rfl
@[simp] theorem State.requestString_reg (s : State) (a : Word) (r : Reg) : (s.requestString a).reg r = s.reg r := rfl
@[simp] theorem State.requestString_sp (s : State) (a : Word) : (s.requestString a).sp = s.sp := rfl

/-! ### clearRequest -/

@[simp] theorem State.clearRequest_regs (s : State) : s.clearRequest.regs = s.regs := rfl
@[simp] theorem State.clearRequest_pc (s : State) : s.clearRequest.pc = s.pc := rfl
@[simp] theorem State.clearRequest_flags (s : State) : s.clearRequest.flags = s.flags := rfl
@[simp] theorem State.clearRequest_halted (s : State) : s.clearRequest.halted = s.halted := rfl
@[simp] theorem State.clearRequest_cyc (s : State) : s.clearRequest.cyc = s.cyc := rfl
@[simp] theorem State.clearRequest_mem (s : State) : s.clearRequest.mem = s.mem := rfl
@[simp] theorem State.clearRequest_pendValid (s : State) : s.clearRequest.pendValid = false := rfl
@[simp] theorem State.clearRequest_pendAddr (s : State) : s.clearRequest.pendAddr = s.pendAddr := rfl
@[simp] theorem State.clearRequest_out (s : State) : s.clearRequest.out = s.out := rfl
@[simp] theorem State.clearRequest_report (s : State) : s.clearRequest.report = s.report := rfl
@[simp] theorem State.clearRequest_reg (s : State) (r : Reg) : s.clearRequest.reg r = s.reg r := rfl
@[simp] theorem State.clearRequest_sp (s : State) : s.clearRequest.sp = s.sp := rfl

/-! ### emit -/

@[simp] theorem State.emit_regs (s : State) (bs : List Byte) : (s.emit bs).regs = s.regs := rfl
@[simp] theorem State.emit_pc (s : State) (bs : List Byte) : (s.emit bs).pc = s.pc := rfl
@[simp] theorem State.emit_flags (s : State) (bs : List Byte) : (s.emit bs).flags = s.flags := rfl
@[simp] theorem State.emit_halted (s : State) (bs : List Byte) : (s.emit bs).halted = s.halted := rfl
@[simp] theorem State.emit_cyc (s : State) (bs : List Byte) : (s.emit bs).cyc = s.cyc := rfl
@[simp] theorem State.emit_mem (s : State) (bs : List Byte) : (s.emit bs).mem = s.mem := rfl
@[simp] theorem State.emit_pendValid (s : State) (bs : List Byte) : (s.emit bs).pendValid = s.pendValid := rfl
@[simp] theorem State.emit_pendAddr (s : State) (bs : List Byte) : (s.emit bs).pendAddr = s.pendAddr := rfl
@[simp] theorem State.emit_out (s : State) (bs : List Byte) : (s.emit bs).out = s.out ++ bs := rfl
@[simp] theorem State.emit_report (s : State) (bs : List Byte) : (s.emit bs).report = s.report := rfl
@[simp] theorem State.emit_reg (s : State) (bs : List Byte) (r : Reg) : (s.emit bs).reg r = s.reg r := rfl
@[simp] theorem State.emit_sp (s : State) (bs : List Byte) : (s.emit bs).sp = s.sp := rfl

/-! ### addReport -/

@[simp] theorem State.addReport_regs (s : State) (e : FaultReport) : (s.addReport e).regs = s.regs := rfl
@[simp] theorem State.addReport_pc (s : State) (e : FaultReport) : (s.addReport e).pc = s.pc := rfl
@[simp] theorem State.addReport_flags (s : State) (e : FaultReport) : (s.addReport e).flags = s.flags := rfl
@[simp] theorem State.addReport_halted (s : State) (e : FaultReport) : (s.addReport e).halted = s.halted := rfl
@[simp] theorem State.addReport_cyc (s : State) (e : FaultReport) : (s.addReport e).cyc = s.cyc := rfl
@[simp] theorem State.addReport_mem (s : State) (e : FaultReport) : (s.addReport e).mem = s.mem := rfl
@[simp] theorem State.addReport_pendValid (s : State) (e : FaultReport) : (s.addReport e).pendValid = s.pendValid := rfl
@[simp] theorem State.addReport_pendAddr (s : State) (e : FaultReport) : (s.addReport e).pendAddr = s.pendAddr := rfl
@[simp] theorem State.addReport_out (s : State) (e : FaultReport) : (s.addReport e).out = s.out := rfl
@[simp] theorem State.addReport_report (s : State) (e : FaultReport) : (s.addReport e).report = s.report ++ [e] := rfl
@[simp] theorem State.addReport_reg (s : State) (e : FaultReport) (r : Reg) : (s.addReport e).reg r = s.reg r := rfl
@[simp] theorem State.addReport_sp (s : State) (e : FaultReport) : (s.addReport e).sp = s.sp := rfl

/-! ### Registers -/

@[simp] theorem Regs.get_set_self (g : Regs) (r : Reg) (w : Word) : (g.set r w).get r = w := by
  cases r <;> rfl

theorem Regs.get_set_of_ne (g : Regs) {r q : Reg} (w : Word) (h : q ≠ r) : (g.set r w).get q = g.get q := by
  cases r <;> cases q <;> first | rfl | exact absurd rfl h

@[simp] theorem Regs.get_set (g : Regs) (r q : Reg) (w : Word) :
    (g.set r w).get q = if q = r then w else g.get q := by
  split
  · next h => subst h; exact Regs.get_set_self g q w
  · next h => exact Regs.get_set_of_ne g w h

/-- Two register files that agree on every register are equal. -/
theorem Regs.ext_get {g h : Regs} (e : ∀ r, g.get r = h.get r) : g = h := by
  have h0 := e .r0; have h1 := e .r1; have h2 := e .r2; have h3 := e .r3
  have h4 := e .r4; have h5 := e .r5; have h6 := e .r6; have h7 := e .r7
  cases g; cases h; simp_all [Regs.get]

@[simp] theorem State.setReg_reg (s : State) (r q : Reg) (w : Word) :
    (s.setReg r w).reg q = if q = r then w else s.reg q := Regs.get_set s.regs r q w

@[simp] theorem State.setReg_sp (s : State) (r : Reg) (w : Word) :
    (s.setReg r w).sp = if .r7 = r then w else s.sp := Regs.get_set s.regs r .r7 w

end Sys2Proof.Machine
end

