-- ==== Sys2Proof/Laws/Ops.lean ====
section
/-! SUPPORT. What each shared operation can do, said once: the provers cite these lemmas and do not unfold the operations. -/

namespace Sys2Proof.Machine

/-! ### The parameters at their defaults (R6) -/

@[simp] theorem params_notForm : params.notForm = .twoOperand := rfl
@[simp] theorem params_stIndRoles : params.stIndRoles = .dataRdAddrRs := rfl
@[simp] theorem params_spUpdateSideEffects : params.spUpdateSideEffects = false := rfl
@[simp] theorem params_cycleCosts :
    params.cycleCosts = { fetch := 1, regWrite := 1, memWrite := 1, mmioWritesCount := true } := rfl
@[simp] theorem params_mmioReadDefault : params.mmioReadDefault = 0x0000#16 := rfl
@[simp] theorem params_fetchRouted : params.fetchRouted = true := rfl
@[simp] theorem params_resetClearsMemory : params.resetClearsMemory = false := rfl

/-! ### Routed reads and writes -/

/-- The window starts at 0xFF00 (R44). -/
theorem isMmio_iff (a : Word) : isMmio a = true ↔ 0xFF00 ≤ a.toNat := by
  simp [isMmio, mmioBase]

theorem isMmio_eq_false_iff (a : Word) : isMmio a = false ↔ a.toNat < 0xFF00 := by
  simp [isMmio, mmioBase]

/-- A routed read: plain storage, the cycle counter, or the default (R44, R56, R57). -/
theorem memRead_spec (s : State) (a : Word) :
    (a.toNat < 0xFF00 ∧ memRead s a = s.mem.read a) ∨
    (a = 0xFF20#16 ∧ memRead s a = s.cyc.extractLsb' 0 16) ∨
    (0xFF00 ≤ a.toNat ∧ a ≠ 0xFF20#16 ∧ memRead s a = 0x0000#16) := by
  by_cases hm : isMmio a = true
  · have hge := (isMmio_iff a).1 hm
    by_cases hc : a = 0xFF20#16
    · exact .inr (.inl ⟨hc, by subst hc; rfl⟩)
    · refine .inr (.inr ⟨hge, hc, ?_⟩)
      simp [memRead, hm, mmioRead, cycleCounterAddr, hc]
  · have hm' : isMmio a = false := by simpa using hm
    exact .inl ⟨(isMmio_eq_false_iff a).1 hm', by simp [memRead, hm']⟩

@[simp] theorem memWriteCost_eq (a : Word) : memWriteCost a = 1#64 := by
  simp [memWriteCost]

@[simp] theorem mmioWrite_regs (s : State) (a v : Word) : (mmioWrite s a v).regs = s.regs := by
  unfold mmioWrite; split_ifs <;> rfl
@[simp] theorem mmioWrite_pc (s : State) (a v : Word) : (mmioWrite s a v).pc = s.pc := by
  unfold mmioWrite; split_ifs <;> rfl
@[simp] theorem mmioWrite_flags (s : State) (a v : Word) : (mmioWrite s a v).flags = s.flags := by
  unfold mmioWrite; split_ifs <;> rfl
@[simp] theorem mmioWrite_halted (s : State) (a v : Word) : (mmioWrite s a v).halted = s.halted := by
  unfold mmioWrite; split_ifs <;> rfl
@[simp] theorem mmioWrite_cyc (s : State) (a v : Word) : (mmioWrite s a v).cyc = s.cyc := by
  unfold mmioWrite; split_ifs <;> rfl
@[simp] theorem mmioWrite_mem (s : State) (a v : Word) : (mmioWrite s a v).mem = s.mem := by
  unfold mmioWrite; split_ifs <;> rfl
@[simp] theorem mmioWrite_report (s : State) (a v : Word) : (mmioWrite s a v).report = s.report := by
  unfold mmioWrite; split_ifs <;> rfl

@[simp] theorem memWrite_regs (s : State) (a v : Word) : (memWrite s a v).regs = s.regs := by
  unfold memWrite; split_ifs <;> simp
@[simp] theorem memWrite_reg (s : State) (a v : Word) (r : Reg) : (memWrite s a v).reg r = s.reg r := by
  simp [State.reg]
@[simp] theorem memWrite_pc (s : State) (a v : Word) : (memWrite s a v).pc = s.pc := by
  unfold memWrite; split_ifs <;> simp
@[simp] theorem memWrite_flags (s : State) (a v : Word) : (memWrite s a v).flags = s.flags := by
  unfold memWrite; split_ifs <;> simp
@[simp] theorem memWrite_halted (s : State) (a v : Word) : (memWrite s a v).halted = s.halted := by
  unfold memWrite; split_ifs <;> simp
@[simp] theorem memWrite_cyc (s : State) (a v : Word) : (memWrite s a v).cyc = s.cyc + 1#64 := by
  unfold memWrite; split_ifs <;> simp
@[simp] theorem memWrite_report (s : State) (a v : Word) : (memWrite s a v).report = s.report := by
  unfold memWrite; split_ifs <;> simp

/-- Everything a routed write does (R45, R52 to R55, R57, R59): the cycle counter, and one of plain storage, the three
writing devices, or nothing. -/
theorem memWrite_spec (s : State) (a v : Word) :
    (a.toNat < 0xFF00 ∧ memWrite s a v = (s.addCyc 1#64).setMem (s.mem.write a v)) ∨
    (a = 0xFF00#16 ∧ memWrite s a v = (s.addCyc 1#64).emit [lowByte v]) ∨
    (a = 0xFF10#16 ∧ memWrite s a v = (s.addCyc 1#64).requestString v) ∨
    (a = 0xFF12#16 ∧ memWrite s a v = (s.addCyc 1#64).emit (decimalText v)) ∨
    (0xFF00 ≤ a.toNat ∧ a ≠ 0xFF00#16 ∧ a ≠ 0xFF10#16 ∧ a ≠ 0xFF12#16 ∧ memWrite s a v = s.addCyc 1#64) := by
  by_cases hm : isMmio a = true
  · have hge := (isMmio_iff a).1 hm
    right
    by_cases h0 : a = 0xFF00#16
    · exact .inl ⟨h0, by subst h0; simp [memWrite, hm, mmioWrite, charOutAddr]⟩
    by_cases h1 : a = 0xFF10#16
    · exact .inr (.inl ⟨h1, by subst h1; simp [memWrite, hm, mmioWrite, charOutAddr, stringOutAddr]⟩)
    by_cases h2 : a = 0xFF12#16
    · refine .inr (.inr (.inl ⟨h2, ?_⟩))
      subst h2; simp [memWrite, hm, mmioWrite, charOutAddr, stringOutAddr, decimalOutAddr]
    · refine .inr (.inr (.inr ⟨hge, h0, h1, h2, ?_⟩))
      simp [memWrite, hm, mmioWrite, charOutAddr, stringOutAddr, decimalOutAddr, h0, h1, h2]
  · have hm' : isMmio a = false := by simpa using hm
    exact .inl ⟨(isMmio_eq_false_iff a).1 hm', by simp [memWrite, hm']⟩

/-- A routed write into plain storage (R45). -/
theorem memWrite_plain (s : State) {a : Word} (v : Word) (h : a.toNat < 0xFF00) :
    memWrite s a v = (s.addCyc 1#64).setMem (s.mem.write a v) := by
  simp [memWrite, (isMmio_eq_false_iff a).2 h]

/-- A routed write into the window changes no cell of the array (R59). -/
theorem memWrite_window_mem (s : State) {a : Word} (v : Word) (h : 0xFF00 ≤ a.toNat) :
    (memWrite s a v).mem = s.mem := by
  simp [memWrite, (isMmio_iff a).2 h]

/-- A routed write keeps the canonical form of the memory. -/
theorem memWrite_mem_wf (s : State) (a v : Word) (h : s.mem.wf) : (memWrite s a v).mem.wf := by
  by_cases hp : a.toNat < 0xFF00
  · simpa [memWrite_plain s v hp] using Memory.write_wf _ _ _ h
  · rw [memWrite_window_mem s v (by omega)]; exact h

/-! ### The write primitives -/

@[simp] theorem writeReg_regs (s : State) (r : Reg) (w : Word) : (writeReg s r w).regs = s.regs.set r w := rfl
@[simp] theorem writeReg_reg (s : State) (r q : Reg) (w : Word) :
    (writeReg s r w).reg q = if q = r then w else s.reg q := Regs.get_set s.regs r q w
@[simp] theorem writeReg_sp (s : State) (r : Reg) (w : Word) :
    (writeReg s r w).sp = if .r7 = r then w else s.sp := Regs.get_set s.regs r .r7 w
@[simp] theorem writeReg_pc (s : State) (r : Reg) (w : Word) : (writeReg s r w).pc = s.pc := rfl
@[simp] theorem writeReg_flags (s : State) (r : Reg) (w : Word) :
    (writeReg s r w).flags = { s.flags with z := zeroFlag w, n := negativeFlag w } := rfl
@[simp] theorem writeReg_halted (s : State) (r : Reg) (w : Word) : (writeReg s r w).halted = s.halted := rfl
@[simp] theorem writeReg_cyc (s : State) (r : Reg) (w : Word) : (writeReg s r w).cyc = s.cyc + 1#64 := rfl
@[simp] theorem writeReg_mem (s : State) (r : Reg) (w : Word) : (writeReg s r w).mem = s.mem := rfl
@[simp] theorem writeReg_pendValid (s : State) (r : Reg) (w : Word) : (writeReg s r w).pendValid = s.pendValid := rfl
@[simp] theorem writeReg_pendAddr (s : State) (r : Reg) (w : Word) : (writeReg s r w).pendAddr = s.pendAddr := rfl
@[simp] theorem writeReg_out (s : State) (r : Reg) (w : Word) : (writeReg s r w).out = s.out := rfl
@[simp] theorem writeReg_report (s : State) (r : Reg) (w : Word) : (writeReg s r w).report = s.report := rfl

/-- The implicit SP update is the register alone (R106). -/
@[simp] theorem writeSpRaw_eq (s : State) (w : Word) : writeSpRaw s w = s.setReg .r7 w := rfl

/-- Writing an ALU result is setting the flags and then the register write (R105, R110 to R115). -/
@[simp] theorem writeAlu_eq (s : State) (r : Reg) (x : AluResult) :
    writeAlu s r x = writeReg (s.setFlags x.flags) r x.value := rfl

/-- Pushing: the decremented SP, then the routed write at it (R65). -/
theorem pushWord_eq (s : State) (v : State → Word) :
    pushWord s v = memWrite (s.setReg .r7 (s.sp - 1#16)) (s.sp - 1#16) (v (s.setReg .r7 (s.sp - 1#16))) := by
  simp [pushWord]

/-- Taking the exception (R201): the report, and Halted. -/
theorem raiseFatalOpcode_eq (s : State) (w : Word) :
    raiseFatalOpcode s w =
      (s.addReport { kind := .fatalOpcode, opcode := opcodeField w, addr := s.pc - 1#16, word := w }).setHalted true := rfl

/-! ### Fetch -/

@[simp] theorem afterFetch_regs (s : State) : (afterFetch s).regs = s.regs := rfl
@[simp] theorem afterFetch_reg (s : State) (r : Reg) : (afterFetch s).reg r = s.reg r := rfl
@[simp] theorem afterFetch_sp (s : State) : (afterFetch s).sp = s.sp := rfl
@[simp] theorem afterFetch_pc (s : State) : (afterFetch s).pc = s.pc + 1#16 := rfl
@[simp] theorem afterFetch_flags (s : State) : (afterFetch s).flags = s.flags := rfl
@[simp] theorem afterFetch_halted (s : State) : (afterFetch s).halted = s.halted := rfl
@[simp] theorem afterFetch_cyc (s : State) : (afterFetch s).cyc = s.cyc + 1#64 := rfl
@[simp] theorem afterFetch_mem (s : State) : (afterFetch s).mem = s.mem := rfl
@[simp] theorem afterFetch_pendValid (s : State) : (afterFetch s).pendValid = s.pendValid := rfl
@[simp] theorem afterFetch_pendAddr (s : State) : (afterFetch s).pendAddr = s.pendAddr := rfl
@[simp] theorem afterFetch_out (s : State) : (afterFetch s).out = s.out := rfl
@[simp] theorem afterFetch_report (s : State) : (afterFetch s).report = s.report := rfl

/-- A fetch reads through the routed read (R47, R48). -/
@[simp] theorem fetchedWord_eq (s : State) : fetchedWord s = memRead s s.pc := rfl

/-- Fetching an instruction: one word or two, by the first word's opcode (R76, R102). -/
theorem fetchInstr_cases (s : State) :
    (needsSecondWord (memRead s s.pc) = true ∧
      fetchInstr s = (decodeWords (memRead s s.pc) (memRead (afterFetch s) (s.pc + 1#16)), afterFetch (afterFetch s))) ∨
    (needsSecondWord (memRead s s.pc) = false ∧
      fetchInstr s = (decodeWords (memRead s s.pc) 0#16, afterFetch s)) := by
  cases h : needsSecondWord (memRead s s.pc) <;> simp [fetchInstr, h]

/-! ### The MMIO service step and the whole step -/

/-- What the service step answers (R109): nothing pending and nothing changed, the string emitted and the request cleared, or
no next state when the scan never ends. -/
theorem serviceMmio_cases (s : State) :
    (s.pendValid = false ∧ serviceMmio s = .next s) ∨
    (s.pendValid = true ∧ ∃ bytes, stringEmit s.mem s.pendAddr = some bytes ∧
      serviceMmio s = .next (s.emit bytes).clearRequest) ∨
    (s.pendValid = true ∧ stringEmit s.mem s.pendAddr = none ∧ serviceMmio s = .fault .stringNeverEnds) := by
  cases hp : s.pendValid
  · exact .inl ⟨rfl, by simp [serviceMmio, hp]⟩
  · cases he : stringEmit s.mem s.pendAddr with
    | none => exact .inr (.inr ⟨rfl, rfl, by simp [serviceMmio, hp, he]⟩)
    | some bytes => exact .inr (.inl ⟨rfl, bytes, rfl, by simp [serviceMmio, hp, he]⟩)

/-- Nothing is pending after a service step that answers a next state (R32, R109). -/
theorem serviceMmio_clears {s t : State} (h : serviceMmio s = .next t) : t.pendValid = false := by
  rcases serviceMmio_cases s with ⟨hp, e⟩ | ⟨_, bytes, _, e⟩ | ⟨_, _, e⟩
  · rw [e] at h; cases h; exact hp
  · rw [e] at h; cases h; rfl
  · rw [e] at h; cases h

/-- The phase after execution answers a next state only from one (R103). -/
theorem thenService_next {x : Host.Outcome State Fault Refusal} {t : State} (h : thenService x = .next t) :
    ∃ u, x = .next u ∧ serviceMmio u = .next t := by
  cases x with
  | next u => exact ⟨u, rfl, h⟩
  | fault f => cases h
  | refused r => cases h

end Sys2Proof.Machine
end

