-- ==== Sys2Proof/Laws/PerInstr.lean ====
section
/-! SUPPORT. The per-instruction families: for every constructor, what holds of the instruction as syntax. -/

namespace Sys2Proof.Laws

/-- The number of words R77 gives the opcode of an instruction; an undefined opcode is one word (R201). -/
def EncodedLength.words (i : Instr) : Nat :=
  match opcodeOf i with
  | some op => if isTwoWord op then 2 else 1
  | none => 1

/-- The encoder writes as many words as R77 says the opcode takes. -/
def EncodedLength.Statement (i : Instr) : Prop := (encode i).length = EncodedLength.words i

theorem EncodedLength.nop : EncodedLength.Statement .nop := rfl
theorem EncodedLength.mov (rd rs : Reg) : EncodedLength.Statement (.mov rd rs) := rfl
theorem EncodedLength.add (rd rs : Reg) : EncodedLength.Statement (.add rd rs) := rfl
theorem EncodedLength.sub (rd rs : Reg) : EncodedLength.Statement (.sub rd rs) := rfl
theorem EncodedLength.and (rd rs : Reg) : EncodedLength.Statement (.and rd rs) := rfl
theorem EncodedLength.or (rd rs : Reg) : EncodedLength.Statement (.or rd rs) := rfl
theorem EncodedLength.xor (rd rs : Reg) : EncodedLength.Statement (.xor rd rs) := rfl
theorem EncodedLength.not (rd rs : Reg) : EncodedLength.Statement (.not rd rs) := rfl
theorem EncodedLength.shl (rd rs : Reg) : EncodedLength.Statement (.shl rd rs) := rfl
theorem EncodedLength.shr (rd rs : Reg) : EncodedLength.Statement (.shr rd rs) := rfl
theorem EncodedLength.cmp (rd rs : Reg) : EncodedLength.Statement (.cmp rd rs) := rfl
theorem EncodedLength.push (r : Reg) : EncodedLength.Statement (.push r) := rfl
theorem EncodedLength.pop (rd : Reg) : EncodedLength.Statement (.pop rd) := rfl
theorem EncodedLength.ldAbs (rd : Reg) (addr : Word) : EncodedLength.Statement (.ldAbs rd addr) := rfl
theorem EncodedLength.stAbs (rd : Reg) (addr : Word) : EncodedLength.Statement (.stAbs rd addr) := rfl
theorem EncodedLength.ldi (rd : Reg) (imm : Word) : EncodedLength.Statement (.ldi rd imm) := rfl
theorem EncodedLength.jmp (addr : Word) : EncodedLength.Statement (.jmp addr) := rfl
theorem EncodedLength.jz (addr : Word) : EncodedLength.Statement (.jz addr) := rfl
theorem EncodedLength.jnz (addr : Word) : EncodedLength.Statement (.jnz addr) := rfl
theorem EncodedLength.jc (addr : Word) : EncodedLength.Statement (.jc addr) := rfl
theorem EncodedLength.jn (addr : Word) : EncodedLength.Statement (.jn addr) := rfl
theorem EncodedLength.call (addr : Word) : EncodedLength.Statement (.call addr) := rfl
theorem EncodedLength.ret : EncodedLength.Statement .ret := rfl
theorem EncodedLength.halt : EncodedLength.Statement .halt := rfl
theorem EncodedLength.ldInd (rd rs : Reg) : EncodedLength.Statement (.ldInd rd rs) := rfl
theorem EncodedLength.stInd (rd rs : Reg) : EncodedLength.Statement (.stInd rd rs) := rfl
theorem EncodedLength.lea (rd : Reg) (addr : Word) : EncodedLength.Statement (.lea rd addr) := rfl
theorem EncodedLength.addi (rd : Reg) (imm : Word) : EncodedLength.Statement (.addi rd imm) := rfl
theorem EncodedLength.subi (rd : Reg) (imm : Word) : EncodedLength.Statement (.subi rd imm) := rfl
theorem EncodedLength.mul (rd rs : Reg) : EncodedLength.Statement (.mul rd rs) := rfl
theorem EncodedLength.undefined30 (w : Word) : EncodedLength.Statement (.undefined30 w) := rfl
theorem EncodedLength.undefined31 (w : Word) : EncodedLength.Statement (.undefined31 w) := rfl

end Sys2Proof.Laws
end

