-- ==== Sys2Proof/Laws/Step.lean ====
section
/-! SUPPORT. The inversion of one step: everything a step that answers a next state can have done. -/

namespace Sys2Proof.Machine

/-- A jump not taken leaves the state as it is (R180). -/
@[simp] theorem jumpIf_false (addr : Word) (s : State) : jumpIf false addr s = s := rfl

/-- A jump taken sets pc alone (R107, R180). -/
@[simp] theorem jumpIf_true (addr : Word) (s : State) : jumpIf true addr s = s.setPc addr := rfl

/-- NOT complements `rs` (R153, NOT_FORM at its default). -/
@[simp] theorem notSource_eq (rd rs : Reg) : notSource rd rs = rs := rfl

/-- ST_IND takes its address from `rs` and its data from `rd` (R173, ST_IND_ROLES at its default). -/
@[simp] theorem stIndAddressReg_eq (rd rs : Reg) : stIndAddressReg rd rs = rs := rfl

@[simp] theorem stIndDataReg_eq (rd rs : Reg) : stIndDataReg rd rs = rd := rfl

/-- A step of a halted core (R120). -/
theorem step_halted {s : State} (h : s.halted = true) : step s = .next s := by
  simp [step, h]

/-- A step of a running core is the instruction cycle (R103). -/
theorem step_running {s : State} (h : s.halted = false) :
    step s = thenService (exec (fetchInstr s).1 (fetchInstr s).2) := by
  simp [step, h]

/-- Everything a step can do when it answers a next state: nothing when Halted; otherwise the meaning of the fetched
instruction, then the service step (R103, R109, R120). -/
theorem step_next {s t : State} (h : step s = .next t) :
    (s.halted = true ∧ t = s) ∨
    (s.halted = false ∧ ∃ u, exec (fetchInstr s).1 (fetchInstr s).2 = .next u ∧ serviceMmio u = .next t) := by
  cases hh : s.halted with
  | true =>
    rw [step_halted hh] at h
    cases h
    exact .inl ⟨rfl, rfl⟩
  | false =>
    rw [step_running hh] at h
    exact .inr ⟨rfl, thenService_next h⟩

/-- The service step changes the console and the pending bit alone (R58, R109). -/
theorem serviceMmio_frame {s t : State} (h : serviceMmio s = .next t) :
    t.regs = s.regs ∧ t.pc = s.pc ∧ t.flags = s.flags ∧ t.halted = s.halted ∧ t.cyc = s.cyc ∧ t.mem = s.mem ∧
      t.pendAddr = s.pendAddr ∧ t.report = s.report ∧ s.out <+: t.out := by
  rcases serviceMmio_cases s with ⟨_, e⟩ | ⟨_, bytes, _, e⟩ | ⟨_, _, e⟩
  · rw [e] at h; cases h; simp
  · rw [e] at h; cases h; simp
  · rw [e] at h; cases h

/-- A step of a halted core stays where it is (R120). -/
theorem halted_step_fixed {s t : State} (hs : s.halted = true) (h : step s = .next t) : t = s := by
  rw [step_halted hs] at h
  cases h
  rfl

end Sys2Proof.Machine
end

