-- ==== Sys2Proof/Tests/Slice0.lean ====
section
/-! SUPPORT. The model's own tests: the well-formedness smoke test, one hand-written word for each constructor, at most two small
tests for each instruction with results from 95_test_vectors.md or the rules' examples, and a witness for the hypotheses of each
statement. -/

namespace Sys2Proof.Tests

open Sys2Proof.Machine Sys2Proof.Claims

/-- The reset state with words stored from address 0. -/
def loaded (ws : List Word) : State := State.reset.setMem (loadWords [] 0 ws)

/-- The reset state with words stored from address 0 and two registers set. -/
def with2 (ws : List Word) (r : Reg) (v : Word) (q : Reg) (w : Word) : State := ((loaded ws).setReg r v).setReg q w

/-- A state with one memory word set. -/
def poke (s : State) (a v : Word) : State := s.setMem (s.mem.write a v)

/-- The state after one step. -/
def after (s : State) : Option State :=
  match step s with
  | .next t => some t
  | .fault _ => none
  | .refused _ => none

/-- Flags written as four bits Z, N, C, V. -/
def bits (z n c v : Bool) : Flags := { z := z, n := n, c := c, v := v }

/-! ## Well-formedness: each check refuses an ill-formed term -/

theorem test_wellFormed_refuses_undefined30 : WellFormed (.undefined30 0xF800) = false := by decide
theorem test_wellFormed_refuses_undefined31 : WellFormed (.undefined31 0x0000) = false := by decide

/-! ## Decoding: one word for each constructor, written out bit by bit from the encoding column of the opcode table -/

theorem test_decode_nop : decode [0b0000000000000000] = .ok (.nop, []) := rfl
theorem test_decode_mov : decode [0b0000100101000000] = .ok (.mov .r1 .r2, []) := rfl
theorem test_decode_add : decode [0b0001001110100000] = .ok (.add .r3 .r5, []) := rfl
theorem test_decode_sub : decode [0b0001110011100000] = .ok (.sub .r4 .r7, []) := rfl
theorem test_decode_and : decode [0b0010000000100000] = .ok (.and .r0 .r1, []) := rfl
theorem test_decode_or : decode [0b0010111000000000] = .ok (.or .r6 .r0, []) := rfl
theorem test_decode_xor : decode [0b0011010010000000] = .ok (.xor .r4 .r4, []) := rfl
theorem test_decode_not : decode [0b0011110110100000] = .ok (.not .r5 .r5, []) := rfl
theorem test_decode_shl : decode [0b0100001001100000] = .ok (.shl .r2 .r3, []) := rfl
theorem test_decode_shr : decode [0b0100111111000000] = .ok (.shr .r7 .r6, []) := rfl
theorem test_decode_cmp : decode [0b0101000000111111] = .ok (.cmp .r0 .r1, []) := rfl
theorem test_decode_push : decode [0b0101101011100000] = .ok (.push .r2, []) := rfl
theorem test_decode_pop : decode [0b0110011100000000] = .ok (.pop .r7, []) := rfl
theorem test_decode_ldAbs : decode [0b0110100000000000, 0x0100] = .ok (.ldAbs .r0 0x0100, []) := rfl
theorem test_decode_stAbs : decode [0b0111001100000000, 0xFF12] = .ok (.stAbs .r3 0xFF12, []) := rfl
theorem test_decode_ldi : decode [0b0111101100000000, 0xFFFF] = .ok (.ldi .r3 0xFFFF, []) := rfl
theorem test_decode_jmp : decode [0b1000000000000000, 0x0123] = .ok (.jmp 0x0123, []) := rfl
theorem test_decode_jz : decode [0b1000111111111111, 0x0040] = .ok (.jz 0x0040, []) := rfl
theorem test_decode_jnz : decode [0b1001000000000000, 0x0040] = .ok (.jnz 0x0040, []) := rfl
theorem test_decode_jc : decode [0b1001100000000000, 0x0040] = .ok (.jc 0x0040, []) := rfl
theorem test_decode_jn : decode [0b1010000000000000, 0x0040] = .ok (.jn 0x0040, []) := rfl
theorem test_decode_call : decode [0b1010100000000000, 0x0200] = .ok (.call 0x0200, []) := rfl
theorem test_decode_ret : decode [0b1011000000000000] = .ok (.ret, []) := rfl
theorem test_decode_halt : decode [0b1011111111111111] = .ok (.halt, []) := rfl
theorem test_decode_ldInd : decode [0b1100000101000000] = .ok (.ldInd .r1 .r2, []) := rfl
theorem test_decode_stInd : decode [0b1100100101000000] = .ok (.stInd .r1 .r2, []) := rfl
theorem test_decode_lea : decode [0b1101001000000000, 0x0123] = .ok (.lea .r2 0x0123, []) := rfl
theorem test_decode_addi : decode [0b1101101000000000, 0x7000] = .ok (.addi .r2 0x7000, []) := rfl
theorem test_decode_subi : decode [0b1110001000000000, 0x0001] = .ok (.subi .r2 0x0001, []) := rfl
theorem test_decode_mul : decode [0b1110101101100000] = .ok (.mul .r3 .r3, []) := rfl
theorem test_decode_undefined30 : decode [0b1111011111111111] = .ok (.undefined30 0xF7FF, []) := rfl
theorem test_decode_undefined31 : decode [0b1111100000000000] = .ok (.undefined31 0xF800, []) := rfl
/-- A two-word opcode at the end of the stream is rejected by name, and so is an empty stream. -/
theorem test_decode_rejects_by_name : decode [0x7800] = .error .noSecondWord ∧ decode [] = .error .noWord := ⟨rfl, rfl⟩
theorem test_decodeBytes_little_endian : decodeBytes [0x00, 0x78, 0x05, 0x00] = .ok (.ldi .r0 5, []) := rfl
theorem test_decodeTableWord_second_word_zero : decodeTableWord 16 0x7B00 = some (.ldi .r3 0) := rfl

/-! ## One step of each instruction (95_test_vectors.md section 2, unless another source is named) -/

theorem test_nop_with_junk_bits : (after (loaded [0x07FF])).map (fun t => (t.pc, t.cyc)) = some (1, 1) := by decide
theorem test_mov_negative : (after ((with2 [0x0940] .r2 0x8000 .r0 0).setFlags (bits false false true true))).map
    (fun t => (t.regs.r1, t.flags)) = some (0x8000, bits false true true true) := by decide
theorem test_mov_sp : (after (with2 [0x0F00] .r0 0x1234 .r1 0)).map (fun t => (t.sp, t.cyc)) = some (0x1234, 2) := by decide
theorem test_ldi_negative : (after (loaded [0x7B00, 0xFFFF])).map (fun t => (t.regs.r3, t.flags)) =
    some (0xFFFF, bits false true false false) := by decide
theorem test_ldi_zero_keeps_carry : (after ((loaded [0x7800, 0x0000]).setFlags (bits false false true false))).map
    (fun t => (t.flags, t.cyc)) = some (bits true false true false, 3) := by decide
theorem test_lea_is_the_address : (after (loaded [0xD200, 0x0123])).map (fun t => (t.regs.r2, t.pc)) =
    some (0x0123, 2) := by decide
theorem test_add_signed_overflow : (after (with2 [0x1020] .r0 0x7FFF .r1 0x0001)).map (fun t => (t.regs.r0, t.flags)) =
    some (0x8000, bits false true false true) := by decide
theorem test_add_same_register : (after (with2 [0x1120] .r1 0x4001 .r0 0)).map (fun t => (t.regs.r1, t.flags)) =
    some (0x8002, bits false true false true) := by decide
theorem test_sub_borrow : (after (with2 [0x1820] .r0 0x0003 .r1 0x0005)).map (fun t => (t.regs.r0, t.flags)) =
    some (0xFFFE, bits false true true false) := by decide
theorem test_sub_overflow_and_borrow : (after (with2 [0x1820] .r0 0x7FFF .r1 0xFFFF)).map
    (fun t => (t.regs.r0, t.flags)) = some (0x8000, bits false true true true) := by decide
theorem test_addi_carry : (after (with2 [0xDA00, 0x0001] .r2 0xFFFF .r0 0)).map (fun t => (t.regs.r2, t.flags)) =
    some (0x0000, bits true false true false) := by decide
theorem test_subi_overflow : (after (with2 [0xE200, 0x0001] .r2 0x8000 .r0 0)).map (fun t => (t.regs.r2, t.flags)) =
    some (0x7FFF, bits false false false true) := by decide
theorem test_mul_carry_with_zero_result : (after (with2 [0xE820] .r0 0x0100 .r1 0x0100)).map
    (fun t => (t.regs.r0, t.flags)) = some (0x0000, bits true false true false) := by decide
theorem test_mul_no_carry : (after (with2 [0xE820] .r0 0x00FF .r1 0x0100)).map (fun t => (t.regs.r0, t.flags)) =
    some (0xFF00, bits false true false false) := by decide
theorem test_cmp_below : (after (with2 [0x5020] .r0 0x0005 .r1 0x0006)).map (fun t => (t.regs.r0, t.flags)) =
    some (0x0005, bits false true true false) := by decide
theorem test_cmp_counts_the_fetch_only : (after (with2 [0x5020] .r0 0x8000 .r1 0x0001)).map
    (fun t => (t.flags, t.cyc)) = some (bits false false false true, 1) := by decide
theorem test_and_clears : (after ((with2 [0x2020] .r0 0xF0F0 .r1 0x0FF0).setFlags (bits false false true true))).map
    (fun t => (t.regs.r0, t.flags)) = some (0x00F0, bits false false false false) := by decide
theorem test_or : (after (with2 [0x2820] .r0 0x8000 .r1 0x0001)).map (fun t => (t.regs.r0, t.flags)) =
    some (0x8001, bits false true false false) := by decide
theorem test_xor : (after (with2 [0x3020] .r0 0xFFFF .r1 0x00FF)).map (fun t => (t.regs.r0, t.flags)) =
    some (0xFF00, bits false true false false) := by decide
theorem test_not_takes_rs : (after (with2 [0x3820] .r0 0x5555 .r1 0xFFFF)).map (fun t => (t.regs.r0, t.flags)) =
    some (0x0000, bits true false false false) := by decide
theorem test_shl_last_bit_out : (after (with2 [0x4020] .r0 0x0003 .r1 0x000F)).map (fun t => (t.regs.r0, t.flags)) =
    some (0x8000, bits false true true false) := by decide
theorem test_shl_by_sixteen_keeps_carry : (after ((with2 [0x4020] .r0 0x1234 .r1 0x0010).setFlags
    (bits false false true true))).map (fun t => (t.regs.r0, t.flags)) = some (0x1234, bits false false true false) := by
  decide
theorem test_shr_is_logical : (after (with2 [0x4820] .r0 0x8001 .r1 0x0001)).map (fun t => (t.regs.r0, t.flags)) =
    some (0x4000, bits false false true false) := by decide
theorem test_shr_fifteen : (after (with2 [0x4820] .r0 0x4000 .r1 0x000F)).map (fun t => (t.regs.r0, t.flags)) =
    some (0x0000, bits true false true false) := by decide
theorem test_push_r7_stores_the_decremented_sp : (after (loaded [0x5F00])).map (fun t => (t.sp, t.mem.read 0xEFFF)) =
    some (0xEFFF, 0xEFFF) := by decide
theorem test_push_into_the_character_device : (after (with2 [0x5800] .r0 0x0041 .r7 0xFF01)).map
    (fun t => (t.sp, t.out)) = some (0xFF00, [0x41]) := by decide
theorem test_pop : (after (poke (with2 [0x6100] .r7 0xEFFF .r0 0) 0xEFFF 0xBEEF)).map (fun t => (t.regs.r1, t.sp)) =
    some (0xBEEF, 0xF000) := by decide
theorem test_pop_r7_adds_one : (after (poke (with2 [0x6700] .r7 0xEFFF .r0 0) 0xEFFF 0x1000)).map
    (fun t => (t.sp, t.flags)) = some (0x1001, bits false false false false) := by decide
theorem test_ldAbs_cycle_counter : (after (loaded [0x6800, 0xFF20])).map (fun t => (t.regs.r0, t.cyc)) =
    some (0x0002, 3) := by decide
theorem test_ldAbs_negative : (after (poke (loaded [0x6800, 0x0100]) 0x0100 0x8001)).map
    (fun t => (t.regs.r0, t.flags)) = some (0x8001, bits false true false false) := by decide
theorem test_stAbs_decimal : (after (with2 [0x7300, 0xFF12] .r3 0xFFFF .r0 0)).map (fun t => (t.out, t.cyc)) =
    some ([0x36, 0x35, 0x35, 0x33, 0x35, 0x0A], 3) := by decide
theorem test_stAbs_string : (after (poke (poke (with2 [0x7300, 0xFF10] .r3 0x0300 .r0 0) 0x0300 0x0048) 0x0301 0x0169)).map
    (fun t => (t.out, t.pendValid)) = some ([0x48, 0x69], false) := by decide
theorem test_ldInd_same_register : (after (poke (with2 [0xC120] .r1 0x0100 .r0 0) 0x0100 0x7777)).map
    (fun t => (t.regs.r1, t.cyc)) = some (0x7777, 2) := by decide
theorem test_stInd : (after (with2 [0xC940] .r1 0x55AA .r2 0x0300)).map (fun t => (t.mem.read 0x0300, t.cyc)) =
    some (0x55AA, 2) := by decide
theorem test_jmp : (after (loaded [0x8000, 0x0123])).map (fun t => (t.pc, t.cyc)) = some (0x0123, 2) := by decide
theorem test_jz_taken : (after ((loaded [0x8800, 0x0040]).setFlags (bits true false false false))).map (fun t => t.pc) =
    some 0x0040 := by decide
theorem test_jz_not_taken : (after (loaded [0x8800, 0x0040])).map (fun t => (t.pc, t.cyc)) = some (2, 2) := by decide
theorem test_jnz_taken : (after (loaded [0x9000, 0x0040])).map (fun t => t.pc) = some 0x0040 := by decide
theorem test_jc_taken : (after ((loaded [0x9800, 0x0040]).setFlags (bits false false true false))).map (fun t => t.pc) =
    some 0x0040 := by decide
theorem test_jn_taken : (after ((loaded [0xA000, 0x0040]).setFlags (bits false true false false))).map (fun t => t.pc) =
    some 0x0040 := by decide
theorem test_call : (after ((poke (poke State.reset 0x0010 0xA800) 0x0011 0x0200).setPc 0x0010)).map
    (fun t => (t.pc, t.mem.read 0xEFFF)) = some (0x0200, 0x0012) := by decide
theorem test_call_into_the_decimal_device :
    (after (((poke (poke State.reset 0x007B 0xA800) 0x007C 0x0040).setPc 0x007B).setReg .r7 0xFF13)).map
    (fun t => (t.sp, t.out)) = some (0xFF12, [0x31, 0x32, 0x35, 0x0A]) := by decide
theorem test_ret : (after (((poke (poke State.reset 0x0200 0xB000) 0xEFFF 0x0012).setPc 0x0200).setReg .r7 0xEFFF)).map
    (fun t => (t.pc, t.sp)) = some (0x0012, 0xF000) := by decide
theorem test_ret_at_the_top : (after ((loaded [0xB000]).setReg .r7 0xFFFF)).map (fun t => (t.pc, t.sp)) =
    some (0x0000, 0x0000) := by decide
theorem test_halt : (after (loaded [0xBFFF])).map (fun t => (t.halted, t.pc, t.report)) = some (true, 1, []) := by decide
theorem test_undefined30_report : (after ((poke State.reset 0x0020 0xF7FF).setPc 0x0020)).map
    (fun t => (t.halted, t.pc, t.report)) =
    some (true, 0x0021, [{ kind := .fatalOpcode, opcode := 30, addr := 0x0020, word := 0xF7FF }]) := by decide
theorem test_undefined31_report : (after ((poke State.reset 0x0020 0xFFFF).setPc 0x0020)).map
    (fun t => (t.cyc, t.report)) =
    some (1, [{ kind := .fatalOpcode, opcode := 31, addr := 0x0020, word := 0xFFFF }]) := by decide
/-- A fetch in the window does not read the backing cell, and pc wraps (20_memory.md R48). -/
theorem test_fetch_is_routed : (after ((poke State.reset 0xFFFF 0x8000).setPc 0xFFFF)).map (fun t => (t.pc, t.cyc)) =
    some (0x0000, 1) := by decide
/-- The host's placing of a two-word row at reset is fetched and run (R131's example). -/
theorem test_withFetchWord_runs : (after (State.reset.withFetchWord 32 0x00057800)).map (fun t => (t.regs.r0, t.cyc)) =
    some (0x0005, 3) := by decide

/-! ## Host operations and the assembler -/

theorem test_load_past_the_end_is_refused : load [1, 2] 0xFFFF State.reset = .refused .loadPastEnd := by rfl
theorem test_load_does_not_reach_the_device : load [0x41] 0xFF00 State.reset =
    .next (poke State.reset 0xFF00 0x0041) := by rfl
theorem test_odd_image : wordsOfBytes [0x12, 0x34, 0x56] = [0x3412, 0x0056] := by decide
/-- Program P4 of 95_test_vectors.md, the forward label and the string. -/
theorem test_assemble_p4 :
    Assembler.assemble "LDI r0, msg\nST r0, [0xFF10]\nldi R1, '!'  ; mark\nST r1, [0xFF00]\nHALT\nmsg:\n.asciiz \"Hi\"".toList =
    .ok [0x7800, 0x0009, 0x7000, 0xFF10, 0x7900, 0x0021, 0x7100, 0xFF00, 0xB800, 0x0048, 0x0069, 0x0000] := by rfl
/-- S12 and S13: a label after `.org`, and an undefined label. -/
theorem test_assemble_org_and_undefined :
    Assembler.assemble ".org 0x2\nLD r1, [r2]\nt:\nJMP t".toList = .ok [0, 0, 0xC140, 0x8000, 3] ∧
    Assembler.assemble "JMP nowhere".toList = .error .undefinedLabel := ⟨rfl, rfl⟩
/-- A label as the operand of `.org`, defined above it (R87, R90); a label defined nowhere; a register. -/
theorem test_assemble_org_label :
    Assembler.assemble "NOP\nt:\nNOP\nNOP\n.org t\nHALT".toList = .ok [0, 0xB800, 0] ∧
    Assembler.assemble ".org nowhere".toList = .error .undefinedLabel ∧
    Assembler.assemble ".org r1".toList = .error .badOrg := ⟨rfl, rfl, rfl⟩

/-! ## Witnesses: for each statement with hypotheses, values that meet them -/

/-- DecodeInvertsEncode: an ordinary instruction and both undefined rows at the ends of their ranges. -/
theorem witness_decodeInvertsEncode : WellFormed (.stInd .r7 .r0) = true ∧ WellFormed (.undefined30 0xF000) = true ∧
    WellFormed (.undefined30 0xF7FF) = true ∧ WellFormed (.undefined31 0xF800) = true ∧
    WellFormed (.undefined31 0xFFFF) = true := by decide

/-- UnusedBitsDoNotMatter: PUSH with a junk rs field and junk low bits; MUL, the last opcode, with junk low bits. -/
theorem witness_unusedBits :
    ((0x5800 : Word).toNat / 2048 = (0x58FF : Word).toNat / 2048 ∧ (0x5800 : Word).toNat / 2048 < 30 ∧
      (0x5800 : Word).toNat / 256 % 8 = (0x58FF : Word).toNat / 256 % 8) ∧
    ((0xEF20 : Word).toNat / 2048 = (0xEF3F : Word).toNat / 2048 ∧ (0xEF20 : Word).toNat / 2048 < 30 ∧
      (0xEF20 : Word).toNat / 256 % 8 = (0xEF3F : Word).toNat / 256 % 8 ∧
      (0xEF20 : Word).toNat / 32 % 8 = (0xEF3F : Word).toNat / 32 % 8) := by decide

/-- SecondWordIsFetchedExactlyForTheTwelve: a two-word and a one-word instruction. -/
theorem witness_secondWord : decode [0x9000, 0x0040, 1] = .ok (.jnz 0x0040, [1]) ∧
    decode [0xB000, 0x0040] = .ok (.ret, [0x0040]) := ⟨rfl, rfl⟩

/-- UndefinedWordsAreThoseFromF000: each clause at the ends of its range. -/
theorem witness_undefinedWords : 0xF000 ≤ (0xF000 : Word).toNat ∧ (0xF7FF : Word).toNat < 0xF800 ∧
    0xF800 ≤ (0xF800 : Word).toNat ∧ 0xF800 ≤ (0xFFFF : Word).toNat ∧ (0xEFFF : Word).toNat < 0xF000 ∧
    decode [0xEFFF] = .ok (.mul .r7 .r7, []) := ⟨by decide, by decide, by decide, by decide, by decide, rfl⟩

/-- StepRunsTheDecodedInstruction: a running state whose words decode, one word and two. -/
theorem witness_stepRuns :
    (loaded [0x1020]).halted = false ∧ WellFormed (.add .r0 .r1) = true ∧
    decode [memRead (loaded [0x1020]) 0, memRead (afterFetch (loaded [0x1020])) 1] = .ok (.add .r0 .r1, [0]) ∧
    decode [memRead (loaded [0x7800, 5]) 0, memRead (afterFetch (loaded [0x7800, 5])) 1] = .ok (.ldi .r0 5, []) :=
  ⟨rfl, rfl, rfl, rfl⟩

/-- HaltedCoreNeverChanges, OnlyUndefinedOpcodesAreReported: a halted state. -/
theorem witness_halted : (State.reset.setHalted true).halted = true := rfl

/-- EveryStepKeepsTheBoundary, NoStepWritesAWindowCell, OutputsOnlyGrow, StepChangesOnlyDestinationRegisters,
CycleCounterGrowsByTheTable, NoInstructionReadsOverflow: a running boundary state with a step that stores, and a window
address. -/
theorem witness_boundary_step :
    let s := with2 [0xC940] .r1 0x55AA .r2 0x0300
    AtBoundary s ∧ s.halted = false ∧ (after s).isSome = true ∧ 0xFF00 ≤ (0xFF00 : Word).toNat := by decide

/-- HaltedIsSetOnlyByHaltAndFault, OnlyUndefinedOpcodesAreReported: running steps of HALT, of an undefined opcode and of
another instruction, and a halted step. -/
theorem witness_halting_steps :
    (after (loaded [0xB800])).isSome = true ∧ (after (loaded [0xF000])).isSome = true ∧
    (after (loaded [0x0000])).isSome = true ∧ (after (State.reset.setHalted true)).isSome = true ∧
    isUndefined (fetchInstr (loaded [0xF000])).1 = true ∧ isUndefined (fetchInstr (loaded [0xB800])).1 = false := by decide

/-- FatalOpcodeEntryIsPrecise: running, at a boundary, an undefined first word. -/
theorem witness_fatalOpcode :
    (loaded [0xF000]).halted = false ∧ AtBoundary (loaded [0xF000]) ∧
    0xF000 ≤ (memRead (loaded [0xF000]) (loaded [0xF000]).pc).toNat := by decide

/-- RunsNeverGetStuckWithAZeroWindowCell: the reset state. -/
theorem witness_zeroWindowCell : AtBoundary State.reset ∧ 0xFF00 ≤ (0xFFFF : Word).toNat ∧
    State.reset.mem.read 0xFFFF = 0 := by decide

/-- StepChangesOnlyTheFlagsItsRowNames: a running step of each of the two classes it speaks of. -/
theorem witness_flagClasses :
    flagClass (fetchInstr (loaded [0x5800])).1 = .none ∧ (after (loaded [0x5800])).isSome = true ∧
    flagClass (fetchInstr (loaded [0x0940])).1 = .zeroNegative ∧ (after (loaded [0x0940])).isSome = true := by decide

/-- StepChangesOnlyTheStoredWord: a step that stores in plain storage, at its last word, one that writes a device, and one that
stores nothing. -/
theorem witness_storeAddresses :
    storeAddress (fetchInstr (loaded [0x7000, 0xFEFF])).1 (fetchInstr (loaded [0x7000, 0xFEFF])).2 = some 0xFEFF ∧
    (after (loaded [0x7000, 0xFEFF])).isSome = true ∧
    storeAddress (fetchInstr (loaded [0x7000, 0xFF00])).1 (fetchInstr (loaded [0x7000, 0xFF00])).2 = some 0xFF00 ∧
    (after (loaded [0x7000, 0xFF00])).isSome = true ∧
    storeAddress (fetchInstr (loaded [0x0940])).1 (fetchInstr (loaded [0x0940])).2 = none := by decide

/-- StoresWriteTheRoutedWord, PushStoresBelowTheStackPointer, CallPushesThePostFetchPc: a canonical memory that is not empty. -/
theorem witness_canonicalMemory : (loaded [0x7800, 5]).mem.wf := by decide

/-- StoresWriteTheRoutedWord: window addresses without a device, where the write counts and nothing else happens. -/
theorem witness_storeWithoutDevice :
    let s := with2 [0xC940] .r1 0x0042 .r2 0xFF11
    s.mem.wf ∧ indirectAddress s .r2 = 0xFF11 ∧ exec (.stInd .r1 .r2) s = .next (s.addCyc 1#64) ∧
    exec (.stAbs .r1 0xFFFF) s = .next (s.addCyc 1#64) := ⟨by decide, rfl, rfl, rfl⟩

/-- PushStoresBelowTheStackPointer: SP = 0x0000, and an SP whose new value is the character device. -/
theorem witness_pushIntoTheWindow :
    let s := (State.reset.setReg .r0 0x0041).setReg .r7 0x0000
    let u := (State.reset.setReg .r0 0x0041).setReg .r7 0xFF01
    s.mem.wf ∧ s.sp - 1 = 0xFFFF ∧ exec (.push .r0) s = .next ((s.setReg .r7 0xFFFF).addCyc 1#64) ∧
    u.mem.wf ∧ u.sp - 1 = 0xFF00 ∧ exec (.push .r0) u = .next (((u.setReg .r7 0xFF00).addCyc 1#64).emit [0x41]) :=
  ⟨by decide, by decide, rfl, by decide, by decide, rfl⟩

/-- CallPushesThePostFetchPc: SP = 0x0000, where the return address is lost. -/
theorem witness_callAtSpZero :
    let s := State.reset.setReg .r7 0x0000
    s.mem.wf ∧ exec (.call 0x0200) s = .next (((s.setReg .r7 0xFFFF).addCyc 1#64).setPc 0x0200) := ⟨by decide, rfl⟩

/-- PushThenPopCopiesTheRegister: the reset stack, PUSH r0 and POP r1; and a stack word at the last plain address. -/
theorem witness_pushThenPop :
    State.reset.mem.wf ∧ (.r0 : Reg) ≠ .r7 ∧ (.r1 : Reg) ≠ .r7 ∧ (State.reset.sp - 1).toNat < 0xFF00 ∧
    ((State.reset.setReg .r7 0xFF00).sp - 1).toNat < 0xFF00 ∧
    exec (.push .r0) State.reset = .next (pushWord State.reset (fun s => s.reg .r0)) :=
  ⟨by decide, by decide, by decide, by decide, by decide, rfl⟩

/-- CallThenReturnComesBack: a CALL at 0x0010 and the state right after it. -/
theorem witness_callThenReturn :
    let s := State.reset.setPc 0x0012
    let t := (pushWord s (fun u => u.pc)).setPc 0x0200
    s.mem.wf ∧ s.pc = (0x0010 : Word) + 2 ∧ (s.sp - 1).toNat < 0xFF00 ∧ exec (.call 0x0200) s = .next t ∧
      t.mem.read t.sp = 0x0012 :=
  ⟨by decide, by decide, by decide, rfl, by decide⟩

/-- StoreIsSeenByTheNextFetch: each of the four storing instructions, the last plain address among them, and a state at the
stored address. -/
theorem witness_storeThenFetch :
    let s := (State.reset.setReg .r2 0xFEFF)
    s.mem.wf ∧ (0xFEFF : Word).toNat < 0xFF00 ∧ (s.sp - 1).toNat < 0xFF00 ∧
    storeAddress (.stAbs .r1 0xFEFF) s = some 0xFEFF ∧ exec (.stAbs .r1 0xFEFF) s = .next (memWrite s 0xFEFF (s.reg .r1)) ∧
    storeAddress (.stInd .r1 .r2) s = some 0xFEFF ∧ exec (.stInd .r1 .r2) s = .next (memWrite s 0xFEFF (s.reg .r1)) ∧
    storeAddress (.push .r7) s = some 0xEFFF ∧ exec (.push .r7) s = .next (pushWord s (fun u => u.reg .r7)) ∧
    storeAddress (.call 0xEFFF) s = some 0xEFFF ∧
    exec (.call 0xEFFF) s = .next ((pushWord s (fun u => u.pc)).setPc 0xEFFF) ∧
    ((pushWord s (fun u => u.pc)).setPc 0xEFFF).pc = 0xEFFF :=
  ⟨by decide, by decide, by decide, rfl, rfl, rfl, rfl, rfl, rfl, rfl, rfl, rfl⟩

/-- StringRequestIsServedByTheSameInstruction, StringEmitScansToTheFirstZeroWord: a string of one character, and the empty
string. -/
theorem witness_strings : stringEmit (poke State.reset 0xFFFF 0x0141).mem 0xFFFF = some [0x41] ∧
    stringEmit State.reset.mem 0x0000 = some [] := by decide

/-- DecimalOutIsTheUnsignedNumber: both clauses, 0 and the largest value. -/
theorem witness_decimal : decimalText 0 = [0x30, 0x0A] ∧
    decimalText 0xFFFF = [0x36, 0x35, 0x35, 0x33, 0x35, 0x0A] := by decide

/-- CycleCounterLoadSeesItsOwnFetches: both forms. -/
theorem witness_cycleCounterLoad :
    let s := loaded [0x6800, 0xFF20]
    let u := with2 [0xC140] .r2 0xFF20 .r1 0
    (s.halted = false ∧ AtBoundary s ∧ fetchInstr s = (.ldAbs .r0 0xFF20, afterFetch (afterFetch s)) ∧
      (after s).isSome = true) ∧
    (u.halted = false ∧ AtBoundary u ∧ fetchInstr u = (.ldInd .r1 .r2, afterFetch u) ∧ u.reg .r2 = 0xFF20 ∧
      (after u).isSome = true) := by decide

/-- ShiftLeftByTheLowFourBits, ShiftRightIsLogical: the amounts 0, 1 and 15. -/
theorem witness_shiftAmounts : (0x0010 : Word).toNat % 16 = 0 ∧ (0x0001 : Word).toNat % 16 = 1 ∧
    (0xFFFF : Word).toNat % 16 = 15 := by decide

/-- PopReadsThenRaisesTheStackPointer: both clauses. -/
theorem witness_popRegisters : (.r0 : Reg) ≠ .r7 ∧ (.r7 : Reg) = .r7 := by decide

/-- LoadWritesTheImageAlone: an image that ends at the last word, and one that runs past it. -/
theorem witness_load : State.reset.mem.wf ∧ (0xFFFE : Word).toNat + ([1, 2] : List Word).length ≤ 65536 ∧
    65536 < (0xFFFF : Word).toNat + ([1, 2] : List Word).length := by decide

/-- RunEndsOnlyHalted: the run of one HALT. -/
theorem witness_runEnds : run 1 (loaded [0xB800]) = .ended (((afterFetch (loaded [0xB800])).setHalted true)) := by rfl

/-- AssembledLinesDecodeToTheirMnemonic: LD with an indirect and with an absolute operand, in both directions. -/
theorem witness_assembledLine :
    Assembler.instrLine .ld [.reg .r1, .memReg .r2] = some (.oneWord (.ldInd .r1 .r2)) ∧
    Assembler.lineWords [] (.instr (.oneWord (.ldInd .r1 .r2))) = .ok [0xC140] ∧
    sourceInstr [] .ld [.reg .r1, .memReg .r2] = some (.ldInd .r1 .r2) ∧
    Assembler.instrLine .ld [.reg .r1, .memVal (.label ['x'])] = some (.twoWord .ldAbs .r1 (.label ['x'])) ∧
    Assembler.lineWords [(['x'], 7)] (.instr (.twoWord .ldAbs .r1 (.label ['x']))) = .ok [0x6900, 7] ∧
    sourceInstr [(['x'], 7)] .ld [.reg .r1, .memVal (.label ['x'])] = some (.ldAbs .r1 7) :=
  ⟨rfl, rfl, rfl, rfl, rfl, rfl⟩

/-! ### A step that is stuck: OnlyAnEndlessStringStopsAStep is about something -/

/-- A memory whose first `n` words are 0x0001. -/
def filled : Nat → Memory
  | 0 => []
  | n + 1 => (2 * n, 1#8) :: filled n

theorem filled_byteAt (n a : Nat) (h : a < n) : (filled n).byteAt (2 * a) = 1#8 := by
  induction n with
  | zero => omega
  | succ n ih =>
    by_cases e : n = a
    · simp [filled, Memory.byteAt, e]
    · have : ¬ 2 * n = 2 * a := by omega
      simp only [filled, Memory.byteAt, this, if_false]
      exact ih (by omega)

theorem filled_read (a : Word) : (filled 65536).read a ≠ 0#16 := by
  intro h
  have h1 := congrArg BitVec.toNat h
  have hb := ((filled 65536).byteAt (2 * a.toNat + 1)).isLt
  simp only [Memory.read, filled_byteAt 65536 a.toNat a.isLt, BitVec.toNat_ofNat] at h1
  omega

theorem stringScan_none_of_no_zero {m : Memory} (h : ∀ a : Word, m.read a ≠ 0#16) (n : Nat) (a : Word) :
    stringScan m n a = none := by
  induction n generalizing a with
  | zero => rfl
  | succ n ih => simp [stringScan, h a, ih]

/-- A running core in the window, where the cycle counter itself is fetched as ST r1, [r2] with r2 = 0xFF10 and no word of
memory is zero. -/
def hanging (m : Memory) : State :=
  ((((State.reset.setPc 0xFF20).addCyc 0xC940).setReg .r2 0xFF10).setMem m)


/-- What that core fetches. -/
theorem hanging_fetch (m : Memory) : fetchInstr (hanging m) = (.stInd .r1 .r2, afterFetch (hanging m)) := by
  have h : fetchedWord (hanging m) = 0xC940#16 := by
    have e : (hanging m).pc = 0xFF20#16 := rfl
    have e2 : (hanging m).cyc = 0xC940#64 := rfl
    simp [memRead, e, e2, isMmio, mmioBase, mmioRead, cycleCounterAddr]
  have h2 : needsSecondWord 0xC940#16 = false := by decide
  have h3 : decodeWords 0xC940#16 0#16 = .stInd .r1 .r2 := by decide
  simp only [fetchInstr, h, h2, h3]
  simp

/-- The string print it requests never ends when no word is zero (20_memory.md R58). -/
theorem stuck_of_no_zero (m : Memory) (h : ∀ a : Word, m.read a ≠ 0#16) : step (hanging m) = .fault .stringNeverEnds := by
  have hr : (hanging m).halted = false := rfl
  rw [step_running hr, hanging_fetch]
  have e : memWrite (afterFetch (hanging m)) 0xFF10#16 0#16 =
      ((afterFetch (hanging m)).addCyc 1#64).requestString 0#16 := by
    simp [memWrite, isMmio, mmioBase, mmioWrite, charOutAddr, stringOutAddr]
  have e1 : (afterFetch (hanging m)).reg .r2 = 0xFF10#16 := rfl
  have e2 : (afterFetch (hanging m)).reg .r1 = 0#16 := rfl
  have e3 : (hanging m).mem = m := rfl
  simp [exec, execStInd, indirectAddress, regOperand, e, e1, e2, e3, thenService, serviceMmio, stringEmit,
    stringScan_none_of_no_zero h]

theorem witness_stuck_step : step (hanging (filled 65536)) = .fault .stringNeverEnds :=
  stuck_of_no_zero _ filled_read
end Sys2Proof.Tests
end

section
/-! PROOF. The halted flag (10_state.md R27): no operation reads it, so setting it commutes with every meaning; from that
follows what sets it. -/

namespace Sys2Proof.Machine

open Sys2Proof.Claims

/-! ### Setting the halted flag commutes with the operations over the state -/

@[simp] theorem State.setHalted_self (s : State) : s.setHalted s.halted = s := rfl
@[simp] theorem State.setHalted_setHalted (s : State) (b c : Bool) : (s.setHalted b).setHalted c = s.setHalted c := rfl
@[simp] theorem State.setReg_setHalted (s : State) (b : Bool) (r : Reg) (w : Word) :
    (s.setHalted b).setReg r w = (s.setReg r w).setHalted b := rfl
@[simp] theorem State.setPc_setHalted (s : State) (b : Bool) (w : Word) :
    (s.setHalted b).setPc w = (s.setPc w).setHalted b := rfl
@[simp] theorem State.setFlags_setHalted (s : State) (b : Bool) (f : Flags) :
    (s.setHalted b).setFlags f = (s.setFlags f).setHalted b := rfl
@[simp] theorem State.addCyc_setHalted (s : State) (b : Bool) (k : BitVec 64) :
    (s.setHalted b).addCyc k = (s.addCyc k).setHalted b := rfl
@[simp] theorem State.setMem_setHalted (s : State) (b : Bool) (m : Memory) :
    (s.setHalted b).setMem m = (s.setMem m).setHalted b := rfl
@[simp] theorem State.addReport_setHalted (s : State) (b : Bool) (e : FaultReport) :
    (s.setHalted b).addReport e = (s.addReport e).setHalted b := rfl
@[simp] theorem writeReg_setHalted (s : State) (b : Bool) (r : Reg) (w : Word) :
    writeReg (s.setHalted b) r w = (writeReg s r w).setHalted b := rfl

/-- A routed read does not look at the halted flag (R27, R44). -/
@[simp] theorem memRead_setHalted (s : State) (b : Bool) (a : Word) : memRead (s.setHalted b) a = memRead s a := rfl

/-- A device write does not look at the halted flag (R27, R51). -/
@[simp] theorem mmioWrite_setHalted (s : State) (b : Bool) (a v : Word) :
    mmioWrite (s.setHalted b) a v = (mmioWrite s a v).setHalted b := by
  unfold mmioWrite; split_ifs <;> rfl

/-- A routed write does not look at the halted flag (R27, R45). -/
@[simp] theorem memWrite_setHalted (s : State) (b : Bool) (a v : Word) :
    memWrite (s.setHalted b) a v = (memWrite s a v).setHalted b := by
  unfold memWrite; split_ifs <;> simp

/-- A jump does not look at the halted flag (R27, R180). -/
@[simp] theorem jumpIf_setHalted (taken : Bool) (addr : Word) (s : State) (b : Bool) :
    jumpIf taken addr (s.setHalted b) = (jumpIf taken addr s).setHalted b := by
  cases taken <;> rfl

/-- The fetches of an instruction leave the halted flag as it was (R102). -/
@[simp] theorem fetchInstr_halted (s : State) : (fetchInstr s).2.halted = s.halted := by
  rcases fetchInstr_cases s with ⟨-, e⟩ | ⟨-, e⟩ <;> simp [e]

/-! ### The instructions -/

/-- The execute phase does not read the halted flag: started with the flag at any value, it does the same and leaves that
value, or 1 after HALT and the fault (R27). The cases stand by the operation the meaning ends in. -/
theorem exec_setHalted {i : Instr} {s t : State} (b : Bool) (h : exec i s = .next t) :
    exec i (s.setHalted b) = .next (t.setHalted (b || isHalting i)) := by
  cases i with
  | halt | undefined30 w | undefined31 w =>
    cases h
    simp [exec, execHalt, execUndefined30, execUndefined31, raiseFatalOpcode_eq, isHalting]
  | nop | cmp rd rs =>
    cases h
    simp [exec, execNop, execCmp, regOperand, isHalting]
  | mov rd rs | ldi rd imm | lea rd addr | ldAbs rd addr | ldInd rd rs =>
    cases h
    simp [exec, execMov, execLdi, execLea, execLdAbs, execLdInd, regOperand, indirectAddress, isHalting]
  | add rd rs | sub rd rs | mul rd rs | addi rd imm | subi rd imm =>
    cases h
    simp [exec, execAdd, execSub, execMul, execAddi, execSubi, regOperand, isHalting]
  | and rd rs | or rd rs | xor rd rs | not rd rs | shl rd rs | shr rd rs =>
    cases h
    simp [exec, execAnd, execOr, execXor, execNot, execShl, execShr, regOperand, isHalting]
  | stAbs rd addr | stInd rd rs | push r | call addr =>
    cases h
    simp [exec, execStAbs, execStInd, execPush, execCall, pushWord_eq, regOperand, indirectAddress, isHalting]
  | pop rd | ret =>
    cases h
    simp [exec, execPop, execRet, isHalting]
  | jmp addr | jz addr | jnz addr | jc addr | jn addr =>
    cases h
    simp [exec, execJmp, execJz, execJnz, execJc, execJn, isHalting]

/-- After the execute phase the halted flag is as it was, or set by HALT or the fault (R27, R191, R201). -/
theorem exec_halted {i : Instr} {s t : State} (h : exec i s = .next t) : t.halted = (s.halted || isHalting i) := by
  have same := exec_setHalted s.halted h
  rw [State.setHalted_self, h, Host.Outcome.next.injEq] at same
  exact congrArg State.halted same

/-- A step of a running core halts it exactly when the fetched instruction is HALT or undefined: the fetches and the service
step keep the flag (R27, R103). -/
theorem step_halted_iff_isHalting {s t : State} (hs : s.halted = false) (h : step s = .next t) :
    t.halted = true ↔ isHalting (fetchInstr s).1 = true := by
  rcases step_next h with ⟨hh, -⟩ | ⟨-, u, hexec, hserve⟩
  · simp [hs] at hh
  · obtain ⟨-, -, -, hkept, -⟩ := serviceMmio_frame hserve
    rw [hkept, exec_halted hexec, fetchInstr_halted, hs, Bool.false_or]

/-- Reset leaves the core Running (R27, R230). -/
@[simp] theorem hostReset_halted (s : State) : (hostReset s).halted = false := rfl

end Sys2Proof.Machine

namespace Sys2Proof.Claims

open Sys2Proof.Machine

/-- Settles O12: the fourth clause is `exec_setHalted`, and the first follows from it. -/
theorem haltedIsSetOnlyByHaltAndFault : Obligations.HaltedIsSetOnlyByHaltAndFault := by
  refine ⟨fun s t => step_halted_iff_isHalting, fun s t hs h => ?_, hostReset_halted, fun i s t b => exec_setHalted b⟩
  rw [halted_step_fixed hs h, hs]

end Sys2Proof.Claims
end

section

/-! PROOF. The character device (20_memory.md R52): a routed write to 0xFF00 emits the low byte of the word. -/

namespace Sys2Proof.Machine

/-- The byte the character device takes from a word is the word modulo 256 (R52). -/
theorem lowByte_toNat (v : Word) : (lowByte v).toNat = v.toNat % 256 := by
  simp [lowByte]

/-- A routed write to 0xFF00 counts one and emits the low byte (R45, R52): every other case of `memWrite_spec` is at another
address. -/
theorem memWrite_charOut (s : State) (v : Word) :
    memWrite s 0xFF00 v = (s.addCyc 1#64).emit [lowByte v] := by
  rcases memWrite_spec s 0xFF00 v with ⟨plain, -⟩ | ⟨-, charOut⟩ | ⟨string, -⟩ | ⟨decimal, -⟩ | ⟨-, other, -⟩
  · exact absurd plain (by decide)
  · exact charOut
  · exact absurd string (by decide)
  · exact absurd decimal (by decide)
  · exact absurd rfl other

end Sys2Proof.Machine

namespace Sys2Proof.Claims

open Sys2Proof.Machine

/-- Settles O47: the byte is `lowByte v`, and `memWrite_charOut` gives the whole next state. -/
theorem characterOutAppendsTheLowByte : Obligations.CharacterOutAppendsTheLowByte := by
  intro s v
  refine ⟨lowByte v, lowByte_toNat v, ?_⟩
  rw [memWrite_charOut]
  rfl

end Sys2Proof.Claims
end

section

/-! PROOF. Decoding an encoded instruction (30_encoding.md, sections 1 to 3): the opcode field alone says how many words the
decoder takes, and the register fields are read back where R81 puts them. -/

namespace Sys2Proof

/-! ### The decoder, by the opcode of the first word -/

/-- An encoded first word asks for a second word exactly when its opcode is one of the twelve of R77. -/
theorem needsSecondWord_firstWord (op : Opcode) {rd rs : Nat} (hd : rd < 8) (hs : rs < 8) :
    needsSecondWord (firstWord op rd rs) = isTwoWord op := by
  simp [needsSecondWord, opcodeField_firstWord op hd hs]

/-- A first word that asks for no second word is the whole instruction (R76). -/
theorem decode_oneWord {w : Word} (rest : List Word) (h : needsSecondWord w = false) :
    decode (w :: rest) = .ok (decodeWords w 0#16, rest) := by
  simp [decode, h]

/-- A first word that asks for a second one takes the next word, and no more (R76). -/
theorem decode_twoWord {w : Word} (imm : Word) (rest : List Word) (h : needsSecondWord w = true) :
    decode (w :: imm :: rest) = .ok (decodeWords w imm, rest) := by
  simp [decode, h]

/-- A first word whose opcode is not in the map is, alone, the undefined row its opcode value names (R79, R201). -/
theorem decode_undefined {w : Word} (rest : List Word) (h : opcodeAt (opcodeField w) = none) :
    decode (w :: rest) = .ok (if opcodeField w = 30#5 then .undefined30 w else .undefined31 w, rest) := by
  rw [decode_oneWord rest (by simp [needsSecondWord, h])]
  simp [decodeWords, h]

/-- The word of a well-formed undefined30 has the opcode value 30. -/
theorem opcodeField_of_wellFormed_undefined30 {w : Word} (h : WellFormed (.undefined30 w) = true) :
    opcodeField w = 30#5 :=
  BitVec.eq_of_toNat_eq (by simpa [WellFormed] using h)

/-- The word of a well-formed undefined31 has the opcode value 31. -/
theorem opcodeField_of_wellFormed_undefined31 {w : Word} (h : WellFormed (.undefined31 w) = true) :
    opcodeField w = 31#5 :=
  BitVec.eq_of_toNat_eq (by simpa [WellFormed] using h)

/-! ### The three formats of R80 -/

/-- EncodeR of a one-word opcode decodes to what its first word stands for, whatever follows. -/
theorem decode_encodeR {op : Opcode} {rd rs : Nat} (hop : isTwoWord op = false) (hd : rd < 8) (hs : rs < 8)
    (rest : List Word) : decode (encodeR op rd rs ++ rest) = .ok (decodeWords (firstWord op rd rs) 0#16, rest) :=
  decode_oneWord rest ((needsSecondWord_firstWord op hd hs).trans hop)

/-- EncodeI of a two-word opcode decodes to what its two words stand for, whatever follows. -/
theorem decode_encodeI {op : Opcode} {rd : Nat} (hop : isTwoWord op = true) (hd : rd < 8) (imm : Word)
    (rest : List Word) : decode (encodeI op rd imm ++ rest) = .ok (decodeWords (firstWord op rd 0) imm, rest) :=
  decode_twoWord imm rest ((needsSecondWord_firstWord op hd (by decide)).trans hop)

/-- EncodeJ is EncodeI with the rd field 0. -/
theorem decode_encodeJ {op : Opcode} (hop : isTwoWord op = true) (addr : Word) (rest : List Word) :
    decode (encodeJ op addr ++ rest) = .ok (decodeWords (firstWord op 0 0) addr, rest) :=
  decode_encodeI hop (by decide) addr rest

/-! ### Decode inverts encode -/

/-- The decoder undoes the encoder on every well-formed instruction. The cases stand by the fields the row of R81 fills:
none; rd and rs; rd alone (PUSH by its parameter, D3); rd and an immediate; an address alone. An undefined row has the opcode
value its well-formedness fixes. -/
theorem decode_encode {i : Instr} (h : WellFormed i = true) (rest : List Word) :
    decode (encode i ++ rest) = .ok (i, rest) := by
  cases i with
  | nop | ret | halt =>
    rw [encode, decode_encodeR rfl (by decide) (by decide)]
    simp [decodeWords, opcodeField_firstWord]
  | mov rd rs | add rd rs | sub rd rs | and rd rs | or rd rs | xor rd rs | not rd rs | shl rd rs | shr rd rs | cmp rd rs
  | ldInd rd rs | stInd rd rs | mul rd rs =>
    rw [encode, decode_encodeR rfl (regNumber_lt rd) (regNumber_lt rs)]
    simp [decodeWords, opcodeField_firstWord, rdField_firstWord, rsField_firstWord, regNumber_lt]
  | push rd | pop rd =>
    simp only [encode, params_pushField]
    rw [decode_encodeR rfl (regNumber_lt rd) (by decide)]
    simp [decodeWords, opcodeField_firstWord, rdField_firstWord, regNumber_lt]
  | ldAbs rd imm | stAbs rd imm | ldi rd imm | lea rd imm | addi rd imm | subi rd imm =>
    rw [encode, decode_encodeI rfl (regNumber_lt rd)]
    simp [decodeWords, opcodeField_firstWord, rdField_firstWord, regNumber_lt]
  | jmp addr | jz addr | jnz addr | jc addr | jn addr | call addr =>
    rw [encode, decode_encodeJ rfl]
    simp [decodeWords, opcodeField_firstWord]
  | undefined30 w =>
    have field : opcodeField w = 30#5 := opcodeField_of_wellFormed_undefined30 h
    rw [encode, List.singleton_append, decode_undefined rest (opcodeAt_eq_none.mpr (.inl field)), if_pos field]
  | undefined31 w =>
    have field : opcodeField w = 31#5 := opcodeField_of_wellFormed_undefined31 h
    rw [encode, List.singleton_append, decode_undefined rest (opcodeAt_eq_none.mpr (.inr field)), if_neg (by simp [field])]

end Sys2Proof

namespace Sys2Proof.Claims

/-- Settles O1: this is `decode_encode`. -/
theorem decodeInvertsEncode : Obligations.DecodeInvertsEncode :=
  fun _ rest h => decode_encode h rest

end Sys2Proof.Claims
end

section

/-! PROOF. The ALU as numbers (40_execution_cycle.md R110, R111, R115): `aluAdd`, `aluSub` and `aluMul` compute in 32 bits, so
the low half is the 16-bit operation, and what lies above it is the carry; and the flags Z and N of a register write (R105). -/

namespace Sys2Proof.Machine

open Sys2Proof.Claims

/-! ### Zero and Negative of a result -/

@[simp] theorem zeroFlag_iff (v : Word) : zeroFlag v = true ↔ v.toNat = 0 := by
  simp [zeroFlag, BitVec.toNat_eq]

/-- The bit the model calls Negative, and tests in its overflow rules, is the library's sign bit. -/
theorem getLsbD_fifteen (v : Word) : v.getLsbD 15 = v.msb := (BitVec.msb_eq_getLsbD_last v).symm

@[simp] theorem negativeFlag_iff (v : Word) : negativeFlag v = true ↔ 32768 ≤ v.toNat := by
  rw [negativeFlag, getLsbD_fifteen, BitVec.msb_eq_decide, decide_eq_true_iff]

/-- Flags whose Z and N are the two functions of `v` follow `v` (R105, R110 to R115). -/
theorem znOf_of_zeroFlag_negativeFlag {f : Flags} {v : Word} (hz : f.z = zeroFlag v) (hn : f.n = negativeFlag v) :
    ZNOf f v :=
  ⟨hz ▸ zeroFlag_iff v, hn ▸ negativeFlag_iff v⟩

/-! ### The 32-bit intermediate and its halves -/

@[simp] theorem zext32_toNat (w : Word) : (zext32 w).toNat = w.toNat :=
  BitVec.toNat_setWidth_of_le (by decide)

@[simp] theorem low16_toNat (t : BitVec 32) : (low16 t).toNat = t.toNat % 65536 := by
  simp [low16]

@[simp] theorem high16_toNat (t : BitVec 32) : (high16 t).toNat = t.toNat / 65536 := by
  have := t.isLt
  rw [high16, BitVec.extractLsb'_toNat, Nat.shiftRight_eq_div_pow]
  omega

/-- Bit 16, where R110 and R111 read the Carry, is the lowest bit of the high half. -/
theorem getLsbD_sixteen_iff (t : BitVec 32) : t.getLsbD 16 = true ↔ t.toNat / 65536 % 2 = 1 := by
  simp [BitVec.getLsbD, Nat.testBit_eq_decide_div_mod_eq]

/-! ### Results: the low half is the 16-bit operation -/

@[simp] theorem aluAdd_value (a b : Word) : (aluAdd a b).value = a + b := by
  apply BitVec.eq_of_toNat_eq
  simp [aluAdd, BitVec.toNat_add]

@[simp] theorem aluSub_value (a b : Word) : (aluSub a b).value = a - b := by
  have ha := a.isLt
  have hb := b.isLt
  have low : (low16 (zext32 a - zext32 b)).toNat = (a - b).toNat := by
    rw [low16_toNat, BitVec.toNat_sub, zext32_toNat, zext32_toNat, BitVec.toNat_sub]
    omega
  exact BitVec.eq_of_toNat_eq low

@[simp] theorem aluMul_value (a b : Word) : (aluMul a b).value = a * b := by
  apply BitVec.eq_of_toNat_eq
  simp [aluMul, BitVec.toNat_mul]

/-! ### Carry: what lies above the low half -/

/-- The sum is below 2^17, so bit 16 is all that lies above the low half (R110). -/
theorem aluAdd_carry_iff (a b : Word) : (aluAdd a b).flags.c = true ↔ 65536 ≤ a.toNat + b.toNat := by
  have ha := a.isLt
  have hb := b.isLt
  have rule : (aluAdd a b).flags.c = (zext32 a + zext32 b).getLsbD 16 := rfl
  rw [rule, getLsbD_sixteen_iff, BitVec.toNat_add, zext32_toNat, zext32_toNat]
  omega

/-- A borrow wraps the 32-bit difference and sets every bit of its high half, bit 16 among them (R111). -/
theorem aluSub_carry_iff (a b : Word) : (aluSub a b).flags.c = true ↔ a.toNat < b.toNat := by
  have ha := a.isLt
  have hb := b.isLt
  have rule : (aluSub a b).flags.c = (zext32 a - zext32 b).getLsbD 16 := rfl
  rw [rule, getLsbD_sixteen_iff, BitVec.toNat_sub, zext32_toNat, zext32_toNat]
  omega

/-- Two 16-bit factors have a product below 2^32. -/
theorem zext32_mul_toNat (a b : Word) : (zext32 a * zext32 b).toNat = a.toNat * b.toNat := by
  have bound : a.toNat * b.toNat < 65536 * 65536 := Nat.mul_lt_mul'' a.isLt b.isLt
  rw [BitVec.toNat_mul, zext32_toNat, zext32_toNat, Nat.mod_eq_of_lt (by omega)]

theorem aluMul_carry_iff (a b : Word) : (aluMul a b).flags.c = true ↔ 65536 ≤ a.toNat * b.toNat := by
  have rule : (aluMul a b).flags.c = (high16 (zext32 a * zext32 b) != 0#16) := rfl
  rw [rule, bne_iff_ne, ← BitVec.toNat_ne_iff_ne, high16_toNat, zext32_mul_toNat, BitVec.toNat_zero]
  omega

/-! ### Overflow: the sign rules of R110 and R111 are the library's signed overflow -/

theorem aluAdd_overflow_eq (a b : Word) : (aluAdd a b).flags.v = BitVec.saddOverflow a b := by
  have rule : (aluAdd a b).flags.v =
      (a.getLsbD 15 == b.getLsbD 15 && (aluAdd a b).value.getLsbD 15 != a.getLsbD 15) := rfl
  rw [rule, BitVec.saddOverflow_eq, aluAdd_value]
  simp only [getLsbD_fifteen, bne]

theorem aluSub_overflow_eq (a b : Word) : (aluSub a b).flags.v = BitVec.ssubOverflow a b := by
  have rule : (aluSub a b).flags.v =
      (a.getLsbD 15 != b.getLsbD 15 && (aluSub a b).value.getLsbD 15 != a.getLsbD 15) := rfl
  rw [rule, BitVec.ssubOverflow_eq, aluSub_value]
  simp only [getLsbD_fifteen]
  cases a.msb <;> cases b.msb <;> simp

theorem saddOverflow_iff (a b : Word) : BitVec.saddOverflow a b = true ↔ SignedOverflow (a.toInt + b.toInt) := by
  simp only [BitVec.saddOverflow, SignedOverflow, Bool.or_eq_true, decide_eq_true_iff]
  omega

theorem ssubOverflow_iff (a b : Word) : BitVec.ssubOverflow a b = true ↔ SignedOverflow (a.toInt - b.toInt) := by
  simp only [BitVec.ssubOverflow, SignedOverflow, Bool.or_eq_true, decide_eq_true_iff]
  omega

theorem aluAdd_overflow_iff (a b : Word) :
    (aluAdd a b).flags.v = true ↔ SignedOverflow (a.toInt + b.toInt) := by
  rw [aluAdd_overflow_eq, saddOverflow_iff]

theorem aluSub_overflow_iff (a b : Word) :
    (aluSub a b).flags.v = true ↔ SignedOverflow (a.toInt - b.toInt) := by
  rw [aluSub_overflow_eq, ssubOverflow_iff]

/-! ### The register write -/

/-- The architectural register write as a whole (R105); C and V are `writeReg_flags`. -/
theorem writeReg_registerWritten (s : State) (r : Reg) (v : Word) : RegisterWritten s (writeReg s r v) r v := by
  have kept : RegsKeptBut s (writeReg s r v) [r] := fun q hq => by
    rw [writeReg_reg, if_neg (by simpa using hq)]
  have zn : ZNOf (writeReg s r v).flags v := znOf_of_zeroFlag_negativeFlag rfl rfl
  have rest : RestKept s (writeReg s r v) := ⟨fun _ => rfl, rfl, ⟨rfl, rfl⟩, rfl, rfl⟩
  exact ⟨by simp, kept, zn, writeReg_cyc s r v, writeReg_pc s r v, rest⟩

end Sys2Proof.Machine

namespace Sys2Proof.Claims

open Sys2Proof.Machine

/-- Settles O24: R110 clause by clause. -/
theorem aluAddIsExact : Obligations.AluAddIsExact := fun a b =>
  ⟨by simp [BitVec.toNat_add], aluAdd_carry_iff a b, aluAdd_overflow_iff a b, znOf_of_zeroFlag_negativeFlag rfl rfl⟩

/-- Settles O25: R111 clause by clause. -/
theorem aluSubIsExact : Obligations.AluSubIsExact := fun a b => by
  have difference : (a - b).toNat = (a.toNat + 65536 - b.toNat) % 65536 := by bv_omega
  exact ⟨aluSub_value a b ▸ difference, aluSub_carry_iff a b, aluSub_overflow_iff a b,
    znOf_of_zeroFlag_negativeFlag rfl rfl⟩

/-- Settles O26: R115 clause by clause. -/
theorem aluMulKeepsTheLowHalf : Obligations.AluMulKeepsTheLowHalf := fun a b =>
  ⟨by simp [BitVec.toNat_mul], aluMul_carry_iff a b, rfl, znOf_of_zeroFlag_negativeFlag rfl rfl⟩

/-- Settles O23: `writeReg_registerWritten`, with C and V from `writeReg_flags`. -/
theorem registerWriteSetsZeroAndNegative : Obligations.RegisterWriteSetsZeroAndNegative := fun s r v =>
  ⟨writeReg_registerWritten s r v, by rw [writeReg_flags], by rw [writeReg_flags]⟩

end Sys2Proof.Claims
end

section

/-! PROOF. The execute phase, said once: an equation for each instruction (R130 to R201), and what a meaning does to each part
of the state. -/

namespace Sys2Proof.Machine

open Sys2Proof.Claims

/-! ### An equation for each instruction -/

@[simp] theorem exec_nop (s : State) : exec .nop s = .next s := rfl
@[simp] theorem exec_halt (s : State) : exec .halt s = .next (s.setHalted true) := rfl
@[simp] theorem exec_undefined30 (w : Word) (s : State) : exec (.undefined30 w) s = .next (raiseFatalOpcode s w) := rfl
@[simp] theorem exec_undefined31 (w : Word) (s : State) : exec (.undefined31 w) s = .next (raiseFatalOpcode s w) := rfl

@[simp] theorem exec_mov (rd rs : Reg) (s : State) : exec (.mov rd rs) s = .next (writeReg s rd (s.reg rs)) := rfl
@[simp] theorem exec_ldi (rd : Reg) (imm : Word) (s : State) : exec (.ldi rd imm) s = .next (writeReg s rd imm) := rfl
@[simp] theorem exec_lea (rd : Reg) (addr : Word) (s : State) : exec (.lea rd addr) s = .next (writeReg s rd addr) := rfl
@[simp] theorem exec_ldAbs (rd : Reg) (addr : Word) (s : State) :
    exec (.ldAbs rd addr) s = .next (writeReg s rd (memRead s addr)) := rfl
@[simp] theorem exec_ldInd (rd rs : Reg) (s : State) :
    exec (.ldInd rd rs) s = .next (writeReg s rd (memRead s (s.reg rs))) := rfl

@[simp] theorem exec_add (rd rs : Reg) (s : State) :
    exec (.add rd rs) s = .next (writeAlu s rd (aluAdd (s.reg rd) (s.reg rs))) := rfl
@[simp] theorem exec_addi (rd : Reg) (imm : Word) (s : State) :
    exec (.addi rd imm) s = .next (writeAlu s rd (aluAdd (s.reg rd) imm)) := rfl
@[simp] theorem exec_sub (rd rs : Reg) (s : State) :
    exec (.sub rd rs) s = .next (writeAlu s rd (aluSub (s.reg rd) (s.reg rs))) := rfl
@[simp] theorem exec_subi (rd : Reg) (imm : Word) (s : State) :
    exec (.subi rd imm) s = .next (writeAlu s rd (aluSub (s.reg rd) imm)) := rfl
@[simp] theorem exec_mul (rd rs : Reg) (s : State) :
    exec (.mul rd rs) s = .next (writeAlu s rd (aluMul (s.reg rd) (s.reg rs))) := rfl
@[simp] theorem exec_cmp (rd rs : Reg) (s : State) :
    exec (.cmp rd rs) s = .next (s.setFlags (aluSub (s.reg rd) (s.reg rs)).flags) := rfl

@[simp] theorem exec_and (rd rs : Reg) (s : State) :
    exec (.and rd rs) s = .next (writeAlu s rd (aluLogic (s.reg rd &&& s.reg rs))) := rfl
@[simp] theorem exec_or (rd rs : Reg) (s : State) :
    exec (.or rd rs) s = .next (writeAlu s rd (aluLogic (s.reg rd ||| s.reg rs))) := rfl
@[simp] theorem exec_xor (rd rs : Reg) (s : State) :
    exec (.xor rd rs) s = .next (writeAlu s rd (aluLogic (s.reg rd ^^^ s.reg rs))) := rfl
@[simp] theorem exec_not (rd rs : Reg) (s : State) :
    exec (.not rd rs) s = .next (writeAlu s rd (aluLogic (~~~ s.reg rs))) := rfl
@[simp] theorem exec_shl (rd rs : Reg) (s : State) :
    exec (.shl rd rs) s = .next (writeAlu s rd (aluShl (s.reg rd) (s.reg rs) s.flags.c)) := rfl
@[simp] theorem exec_shr (rd rs : Reg) (s : State) :
    exec (.shr rd rs) s = .next (writeAlu s rd (aluShr (s.reg rd) (s.reg rs) s.flags.c)) := rfl

@[simp] theorem exec_stAbs (rd : Reg) (addr : Word) (s : State) :
    exec (.stAbs rd addr) s = .next (memWrite s addr (s.reg rd)) := rfl
@[simp] theorem exec_stInd (rd rs : Reg) (s : State) :
    exec (.stInd rd rs) s = .next (memWrite s (s.reg rs) (s.reg rd)) := rfl

/-- PUSH stores the register's value after the decrement of SP, so PUSH r7 stores the decremented SP (R160, D13). -/
@[simp] theorem exec_push (r : Reg) (s : State) :
    exec (.push r) s =
      .next (memWrite (s.setReg .r7 (s.sp - 1)) (s.sp - 1) (if r = .r7 then s.sp - 1 else s.reg r)) := by
  simp [exec, execPush, pushWord_eq, regOperand]

/-- POP writes the register first, so for POP r7 the increment is of the popped value (R161, D13). -/
@[simp] theorem exec_pop (rd : Reg) (s : State) :
    exec (.pop rd) s =
      .next ((writeReg s rd (memRead s s.sp)).setReg .r7 ((writeReg s rd (memRead s s.sp)).sp + 1)) := rfl

@[simp] theorem exec_call (addr : Word) (s : State) :
    exec (.call addr) s = .next ((memWrite (s.setReg .r7 (s.sp - 1)) (s.sp - 1) s.pc).setPc addr) := by
  simp [exec, execCall, pushWord_eq, targetAddress]

@[simp] theorem exec_ret (s : State) : exec .ret s = .next ((s.setReg .r7 (s.sp + 1)).setPc (memRead s s.sp)) := rfl

@[simp] theorem exec_jmp (addr : Word) (s : State) : exec (.jmp addr) s = .next (jumpIf true addr s) := rfl
@[simp] theorem exec_jz (addr : Word) (s : State) : exec (.jz addr) s = .next (jumpIf s.flags.z addr s) := rfl
@[simp] theorem exec_jnz (addr : Word) (s : State) : exec (.jnz addr) s = .next (jumpIf (!s.flags.z) addr s) := rfl
@[simp] theorem exec_jc (addr : Word) (s : State) : exec (.jc addr) s = .next (jumpIf s.flags.c addr s) := rfl
@[simp] theorem exec_jn (addr : Word) (s : State) : exec (.jn addr) s = .next (jumpIf s.flags.n addr s) := rfl

/-! ### Jumps, field by field -/

/-- A jump is a choice of the next pc and nothing else (R107, R180). -/
theorem jumpIf_eq_setPc (taken : Bool) (addr : Word) (s : State) :
    jumpIf taken addr s = s.setPc (if taken then addr else s.pc) := by
  cases taken <;> rfl

@[simp] theorem jumpIf_reg (taken : Bool) (addr : Word) (s : State) (r : Reg) :
    (jumpIf taken addr s).reg r = s.reg r := by rw [jumpIf_eq_setPc]; rfl
@[simp] theorem jumpIf_flags (taken : Bool) (addr : Word) (s : State) : (jumpIf taken addr s).flags = s.flags := by
  rw [jumpIf_eq_setPc]; rfl
@[simp] theorem jumpIf_cyc (taken : Bool) (addr : Word) (s : State) : (jumpIf taken addr s).cyc = s.cyc := by
  rw [jumpIf_eq_setPc]; rfl
@[simp] theorem jumpIf_mem (taken : Bool) (addr : Word) (s : State) : (jumpIf taken addr s).mem = s.mem := by
  rw [jumpIf_eq_setPc]; rfl
@[simp] theorem jumpIf_out (taken : Bool) (addr : Word) (s : State) : (jumpIf taken addr s).out = s.out := by
  rw [jumpIf_eq_setPc]; rfl
@[simp] theorem jumpIf_report (taken : Bool) (addr : Word) (s : State) : (jumpIf taken addr s).report = s.report := by
  rw [jumpIf_eq_setPc]; rfl

/-! ### Routed writes and pushes, field by field -/

/-- A routed write reaches the array below the window alone (R45, R59). -/
theorem memWrite_mem (s : State) (a v : Word) :
    (memWrite s a v).mem = if a.toNat < 0xFF00 then s.mem.write a v else s.mem := by
  by_cases plain : a.toNat < 0xFF00
  · simp [memWrite_plain s v plain, plain]
  · rw [memWrite_window_mem s v (by omega), if_neg plain]

/-- A routed write takes nothing back from the console (R50). -/
theorem memWrite_out_prefix (s : State) (a v : Word) : s.out <+: (memWrite s a v).out := by
  rcases memWrite_spec s a v with ⟨-, e⟩ | ⟨-, e⟩ | ⟨-, e⟩ | ⟨-, e⟩ | ⟨-, -, -, -, e⟩ <;> simp [e]

/-- A push changes no register but SP (R65). -/
theorem pushWord_reg_of_ne (s : State) (v : State → Word) {r : Reg} (h : r ≠ .r7) : (pushWord s v).reg r = s.reg r := by
  simp [pushWord_eq, h]

@[simp] theorem pushWord_flags (s : State) (v : State → Word) : (pushWord s v).flags = s.flags := by simp [pushWord_eq]
@[simp] theorem pushWord_cyc (s : State) (v : State → Word) : (pushWord s v).cyc = s.cyc + 1#64 := by simp [pushWord_eq]
@[simp] theorem pushWord_report (s : State) (v : State → Word) : (pushWord s v).report = s.report := by
  simp [pushWord_eq]

/-- A push writes the word below SP, when it lies in plain storage (R65). -/
theorem pushWord_mem (s : State) (v : State → Word) :
    (pushWord s v).mem =
      if (s.sp - 1).toNat < 0xFF00 then s.mem.write (s.sp - 1) (v (s.setReg .r7 (s.sp - 1))) else s.mem := by
  rw [pushWord_eq]
  exact memWrite_mem (s.setReg .r7 (s.sp - 1)) _ _

theorem pushWord_out_prefix (s : State) (v : State → Word) : s.out <+: (pushWord s v).out := by
  rw [pushWord_eq]
  exact memWrite_out_prefix (s.setReg .r7 (s.sp - 1#16)) _ _

/-! ### What a meaning does to each part of the state -/

/-- Every instruction completes: no meaning faults or is refused (R60, R210). -/
theorem exec_completes (i : Instr) (s : State) : ∃ t, exec i s = .next t := by
  cases i <;> exact ⟨_, rfl⟩

/-- The memory after a meaning: one word written at the store address when it lies in plain storage; nothing else (R46, R47,
R59). -/
theorem exec_mem {i : Instr} {s t : State} (h : exec i s = .next t) :
    (storeAddress i s = none ∧ t.mem = s.mem) ∨
    ∃ a v, storeAddress i s = some a ∧ storedWord i s = some v ∧
      t.mem = if a.toNat < 0xFF00 then s.mem.write a v else s.mem := by
  cases i with
  | stAbs rd addr => cases h; exact .inr ⟨addr, s.reg rd, rfl, rfl, memWrite_mem s _ _⟩
  | stInd rd rs => cases h; exact .inr ⟨s.reg rs, s.reg rd, rfl, rfl, memWrite_mem s _ _⟩
  | push r =>
    cases h
    exact .inr ⟨s.sp - 1, _, rfl, rfl, by simp only [pushWord_mem, regOperand, State.setReg_reg]⟩
  | call addr => cases h; exact .inr ⟨s.sp - 1, s.pc, rfl, rfl, pushWord_mem s _⟩
  | jmp addr | jz addr | jnz addr | jc addr | jn addr => cases h; exact .inl ⟨rfl, jumpIf_mem _ _ s⟩
  | _ => cases h; exact .inl ⟨rfl, rfl⟩

/-- A meaning changes no register but its destinations (R22). -/
theorem exec_regsKeptBut {i : Instr} {s t : State} (h : exec i s = .next t) : RegsKeptBut s t (destinations i) := by
  intro r hr
  cases i with
  | nop | halt | undefined30 w | undefined31 w | cmp rd rs => cases h; rfl
  | jmp addr | jz addr | jnz addr | jc addr | jn addr => cases h; exact jumpIf_reg _ _ s r
  | stAbs rd addr | stInd rd rs => cases h; exact memWrite_reg s _ _ r
  | push q | call addr => cases h; exact pushWord_reg_of_ne s _ (by simpa [destinations] using hr)
  | ret => cases h; exact (State.setReg_reg s .r7 r _).trans (if_neg (by simpa [destinations] using hr))
  | pop rd =>
    obtain ⟨hrd, hr7⟩ : r ≠ rd ∧ r ≠ .r7 := by simpa [destinations] using hr
    cases h
    simp [hrd, hr7]
  | _ => cases h; exact (writeReg_reg _ _ r _).trans (if_neg (by simpa [destinations] using hr))

/-- A meaning changes no flag but those of its row of R26. -/
theorem exec_flags {i : Instr} {s t : State} (h : exec i s = .next t) :
    (flagClass i = .none → t.flags = s.flags) ∧
    (flagClass i = .zeroNegative → t.flags.c = s.flags.c ∧ t.flags.v = s.flags.v) := by
  cases i with
  | nop | halt | ret | undefined30 w | undefined31 w => cases h; exact ⟨fun _ => rfl, nofun⟩
  | jmp addr | jz addr | jnz addr | jc addr | jn addr => cases h; exact ⟨fun _ => jumpIf_flags _ _ s, nofun⟩
  | stAbs rd addr | stInd rd rs => cases h; exact ⟨fun _ => memWrite_flags s _ _, nofun⟩
  | push q | call addr => cases h; exact ⟨fun _ => pushWord_flags s _, nofun⟩
  | mov rd rs | ldi rd imm | lea rd addr | ldAbs rd addr | ldInd rd rs | pop rd =>
    cases h; exact ⟨nofun, fun _ => ⟨rfl, rfl⟩⟩
  | _ => exact ⟨nofun, nofun⟩

/-- What a meaning adds to the cycle counter: the cost of the whole cycle without its fetches (R119). -/
theorem exec_cyc {i : Instr} {s t : State} (h : exec i s = .next t) :
    t.cyc = s.cyc + BitVec.ofNat 64 (cycleCost i - wordCount i) := by
  cases i with
  | nop | halt | ret | cmp rd rs | undefined30 w | undefined31 w => cases h; exact (BitVec.add_zero s.cyc).symm
  | jmp addr | jz addr | jnz addr | jc addr | jn addr =>
    cases h; exact (jumpIf_cyc _ _ s).trans (BitVec.add_zero s.cyc).symm
  | stAbs rd addr | stInd rd rs => cases h; exact memWrite_cyc s _ _
  | push q | call addr => cases h; exact pushWord_cyc s _
  | _ => cases h; rfl

/-- The undefined rows report, one entry, and halt; no other meaning reports (R200, R201). -/
theorem exec_report {i : Instr} {s t : State} (h : exec i s = .next t) :
    (isUndefined i = true ∧ (∃ e : FaultReport, t.report = s.report ++ [e] ∧ e.kind = .fatalOpcode) ∧ t.halted = true) ∨
    (isUndefined i = false ∧ t.report = s.report) := by
  cases i with
  | undefined30 w | undefined31 w => cases h; exact .inl ⟨rfl, ⟨_, rfl, rfl⟩, rfl⟩
  | jmp addr | jz addr | jnz addr | jc addr | jn addr => cases h; exact .inr ⟨rfl, jumpIf_report _ _ s⟩
  | stAbs rd addr | stInd rd rs => cases h; exact .inr ⟨rfl, memWrite_report s _ _⟩
  | push q | call addr => cases h; exact .inr ⟨rfl, pushWord_report s _⟩
  | _ => cases h; exact .inr ⟨rfl, rfl⟩

/-- A meaning takes nothing back from the console (R50). -/
theorem exec_out_prefix {i : Instr} {s t : State} (h : exec i s = .next t) : s.out <+: t.out := by
  cases i with
  | jmp addr | jz addr | jnz addr | jc addr | jn addr => cases h; rw [jumpIf_out]
  | stAbs rd addr | stInd rd rs => cases h; exact memWrite_out_prefix s _ _
  | push q | call addr => cases h; exact pushWord_out_prefix s _
  | _ => cases h; exact List.prefix_rfl

end Sys2Proof.Machine
end

section

/-! PROOF. The decoder by the opcode field of the first word, and the fetch phase (30_encoding.md, sections 1 to 3;
40_execution_cycle.md R102, R103). -/

namespace Sys2Proof

open Sys2Proof.Machine Sys2Proof.Claims

/-! ### What the decoder makes of a first word -/

/-- The decoded instruction has the opcode the field selects, and is an undefined row where the field selects none (R79,
R104). -/
@[simp] theorem opcodeOf_decodeWords (w imm : Word) : opcodeOf (decodeWords w imm) = opcodeAt (opcodeField w) := by
  cases h : opcodeAt (opcodeField w) with
  | none => simp only [decodeWords, h]; split <;> rfl
  | some op => cases op <;> simp [decodeWords, h, opcodeOf]

/-- Where the field selects no opcode, the undefined row its value names carries the word (R79, R201). -/
theorem decodeWords_undefined {w : Word} (imm : Word) (h : opcodeAt (opcodeField w) = none) :
    decodeWords w imm = if opcodeField w = 30#5 then .undefined30 w else .undefined31 w := by
  simp only [decodeWords, h]

/-- The undefined rows are the instructions without an opcode (R79). -/
theorem isUndefined_eq (i : Instr) : isUndefined i = (opcodeOf i).isNone := by
  cases i <;> rfl

theorem isUndefined_decodeWords (w imm : Word) :
    isUndefined (decodeWords w imm) = (opcodeAt (opcodeField w)).isNone := by
  rw [isUndefined_eq, opcodeOf_decodeWords]

/-- Twelve opcodes are two-word (R77). -/
theorem isTwoWord_iff (op : Opcode) :
    isTwoWord op = true ↔
      op ∈ [Opcode.ldi, .lea, .addi, .subi, .ldAbs, .stAbs, .jmp, .jz, .jnz, .jc, .jn, .call] := by
  cases op <;> decide

/-- A first word asks for a second one exactly when its opcode is a two-word one (R76). -/
theorem needsSecondWord_iff (w : Word) :
    needsSecondWord w = true ↔ ∃ op, opcodeAt (opcodeField w) = some op ∧ isTwoWord op = true := by
  cases h : opcodeAt (opcodeField w) <;> simp [needsSecondWord, h]

/-- An instruction occupies two words when its opcode is a two-word one, and one word otherwise (R77). -/
theorem wordCount_eq (i : Instr) : wordCount i = Laws.EncodedLength.words i := by
  cases i <;> rfl

/-- The decoded instruction occupies the words that were read for it (R76, R77). -/
theorem wordCount_decodeWords (w imm : Word) :
    wordCount (decodeWords w imm) = if needsSecondWord w = true then 2 else 1 := by
  cases h : opcodeAt (opcodeField w) <;> simp [wordCount_eq, Laws.EncodedLength.words, needsSecondWord, h]

/-- What the decoder reads: one word, or two when the first asks for a second (R76). -/
theorem decode_cases {w : Word} {rest tail : List Word} {i : Instr} (h : decode (w :: rest) = .ok (i, tail)) :
    (needsSecondWord w = true ∧ ∃ imm, rest = imm :: tail ∧ i = decodeWords w imm) ∨
    (needsSecondWord w = false ∧ rest = tail ∧ i = decodeWords w 0#16) := by
  cases two : needsSecondWord w with
  | false =>
    rw [decode_oneWord rest two] at h
    cases h
    exact .inr ⟨rfl, rfl, rfl⟩
  | true =>
    cases rest with
    | nil => simp [decode, two] at h
    | cons imm rest =>
      rw [decode_twoWord imm rest two] at h
      cases h
      exact .inl ⟨rfl, imm, rfl, rfl⟩

/-- The twelve, in the words of the instruction the decoder gives: it has one of their opcodes exactly when a second word was
read (R76, R77). -/
theorem needsSecondWord_iff_opcodeOf (w imm : Word) :
    needsSecondWord w = true ↔
      ∃ op ∈ [Opcode.ldi, .lea, .addi, .subi, .ldAbs, .stAbs, .jmp, .jz, .jnz, .jc, .jn, .call],
        opcodeOf (decodeWords w imm) = some op := by
  simp only [needsSecondWord_iff, isTwoWord_iff, opcodeOf_decodeWords, and_comm]

/-- From 0xF000 up, and there alone, the opcode field selects nothing (R79). -/
theorem opcodeAt_opcodeField_eq_none (w : Word) : opcodeAt (opcodeField w) = none ↔ 0xF000 ≤ w.toNat := by
  have hw := w.isLt
  rw [opcodeAt_eq_none, ← BitVec.toNat_inj, ← BitVec.toNat_inj, opcodeField_toNat]
  simp only [BitVec.toNat_ofNat]
  omega

/-- The first word of opcode value 30 (R79, R201). -/
theorem opcodeField_eq_thirty (w : Word) : opcodeField w = 30#5 ↔ 0xF000 ≤ w.toNat ∧ w.toNat < 0xF800 := by
  rw [← BitVec.toNat_inj, opcodeField_toNat]
  simp only [BitVec.toNat_ofNat]
  omega

/-- The fields R81 marks as used are all the decoder looks at beside the opcode (R78). -/
theorem decodeWords_congr {w w' : Word} {op : Opcode} (imm : Word) (hop : opcodeAt (opcodeField w) = some op)
    (hop' : opcodeAt (opcodeField w') = some op)
    (hrd : (opcodeMap op).toNat ∈ [1, 2, 3, 4, 5, 6, 7, 8, 9, 10, 11, 12, 13, 14, 15, 24, 25, 26, 27, 28, 29] →
      rdField w = rdField w')
    (hrs : (opcodeMap op).toNat ∈ [1, 2, 3, 4, 5, 6, 7, 8, 9, 10, 24, 25, 29] → rsField w = rsField w') :
    decodeWords w imm = decodeWords w' imm := by
  cases op with
  | nop | jmp | jz | jnz | jc | jn | call | ret | halt => simp [decodeWords, hop, hop']
  | push | pop | ldAbs | stAbs | ldi | lea | addi | subi => simp [decodeWords, hop, hop', hrd (by decide)]
  | _ => simp [decodeWords, hop, hop', hrd (by decide), hrs (by decide)]

end Sys2Proof

namespace Sys2Proof.Machine

open Sys2Proof.Claims

/-! ### The fetch phase -/

/-- The fetched instruction is the decoder's reading of the routed word at pc, for some second word. -/
theorem fetchInstr_fst (s : State) : ∃ imm, (fetchInstr s).1 = decodeWords (memRead s s.pc) imm := by
  rcases fetchInstr_cases s with ⟨-, e⟩ | ⟨-, e⟩ <;> exact ⟨_, congrArg Prod.fst e⟩

/-- The execute phase starts after the fetch of the instruction's own words (R76, R103). -/
theorem fetchInstr_snd (s : State) : (fetchInstr s).2 = postFetch s (fetchInstr s).1 := by
  rcases fetchInstr_cases s with ⟨two, e⟩ | ⟨one, e⟩
  · simp [e, postFetch, wordCount_decodeWords, two]
  · simp [e, postFetch, wordCount_decodeWords, one]

/-- An instruction has one word or two (R77). -/
theorem wordCount_eq_one_or_two (i : Instr) : wordCount i = 1 ∨ wordCount i = 2 := by
  cases i <;> simp [wordCount, encode, encodeR, encodeI, encodeJ]

/-- The fetches move pc and the cycle counter on by one a word, and touch nothing else (R24, R102). -/
theorem postFetch_eq (s : State) (i : Instr) :
    postFetch s i =
      { s with pc := s.pc + BitVec.ofNat 16 (wordCount i), cyc := s.cyc + BitVec.ofNat 64 (wordCount i) } := by
  rcases wordCount_eq_one_or_two i with one | two
  · simp only [postFetch, one]
    rfl
  · have pc2 : s.pc + 1#16 + 1#16 = s.pc + 2#16 := BitVec.add_assoc ..
    have cyc2 : s.cyc + 1#64 + 1#64 = s.cyc + 2#64 := BitVec.add_assoc ..
    simp only [postFetch, two, if_true, ← pc2, ← cyc2]
    rfl

@[simp] theorem fetchInstr_reg (s : State) (r : Reg) : (fetchInstr s).2.reg r = s.reg r := by
  rw [fetchInstr_snd, postFetch_eq]; rfl
@[simp] theorem fetchInstr_cyc (s : State) :
    (fetchInstr s).2.cyc = s.cyc + BitVec.ofNat 64 (wordCount (fetchInstr s).1) := by
  rw [fetchInstr_snd, postFetch_eq]
@[simp] theorem fetchInstr_flags (s : State) : (fetchInstr s).2.flags = s.flags := by
  rw [fetchInstr_snd, postFetch_eq]
@[simp] theorem fetchInstr_mem (s : State) : (fetchInstr s).2.mem = s.mem := by
  rw [fetchInstr_snd, postFetch_eq]
@[simp] theorem fetchInstr_out (s : State) : (fetchInstr s).2.out = s.out := by
  rw [fetchInstr_snd, postFetch_eq]
@[simp] theorem fetchInstr_report (s : State) : (fetchInstr s).2.report = s.report := by
  rw [fetchInstr_snd, postFetch_eq]

/-- When the two words ahead decode to `i`, `i` is what is fetched (R102, R104). -/
theorem fetchInstr_of_decode {s : State} {i : Instr} {rest : List Word}
    (h : decode [memRead s s.pc, memRead (afterFetch s) (s.pc + 1)] = .ok (i, rest)) :
    fetchInstr s = (i, postFetch s i) := by
  have first : (fetchInstr s).1 = i := by
    rcases decode_cases h with ⟨two, imm, hrest, rfl⟩ | ⟨one, -, rfl⟩
    · cases hrest
      simp [fetchInstr, two]
    · simp [fetchInstr, one]
  rw [← first, ← fetchInstr_snd]

end Sys2Proof.Machine

namespace Sys2Proof.Claims

open Sys2Proof.Machine

/-- Settles O2: each row is `encode` at that row. -/
theorem encodedWordsAreTheTablesWords : Obligations.EncodedWordsAreTheTablesWords := by
  intro rd rs imm
  refine ⟨rfl, rfl, rfl, rfl, rfl, rfl, rfl, rfl, rfl, rfl, rfl, rfl, rfl, rfl, rfl, rfl, rfl, rfl, rfl, rfl, rfl, rfl, rfl,
    rfl, rfl, rfl, rfl, rfl, rfl, rfl⟩

/-- Settles O6, each word by running the decoder. -/
theorem sampleWordsDecodeToTheirInstructions : Obligations.SampleWordsDecodeToTheirInstructions :=
  ⟨rfl, rfl, rfl, rfl, rfl, rfl, rfl, rfl, rfl, rfl⟩

/-- Settles O3: equal opcode fields ask for the same number of words, and `decodeWords_congr` compares what they decode to. -/
theorem unusedBitsDoNotMatter : Obligations.UnusedBitsDoNotMatter := by
  intro w w' rest hsame hdef hrd hrs
  have field : opcodeField w = opcodeField w' := BitVec.eq_of_toNat_eq (by simpa using hsame)
  obtain ⟨op, hop⟩ : ∃ op, opcodeAt (opcodeField w) = some op := by
    rw [← Option.ne_none_iff_exists', ne_eq, opcodeAt_opcodeField_eq_none]
    omega
  have number : (opcodeMap op).toNat = w.toNat / 2048 := by rw [opcodeAt_eq_some hop, opcodeField_toNat]
  have alike (imm : Word) : decodeWords w imm = decodeWords w' imm :=
    decodeWords_congr imm hop (field ▸ hop)
      (fun used => BitVec.eq_of_toNat_eq (by simpa using hrd (number ▸ used)))
      (fun used => BitVec.eq_of_toNat_eq (by simpa using hrs (number ▸ used)))
  simp only [decode, needsSecondWord_congr field, alike]

/-- Settles O4: a second word is read exactly for the twelve, by the decoder (`decode_cases`) and by the core
(`fetchInstr_cases`). -/
theorem secondWordIsFetchedExactlyForTheTwelve : Obligations.SecondWordIsFetchedExactlyForTheTwelve := by
  refine ⟨fun w rest tail i h => ?_, fun s => ?_⟩
  · rcases decode_cases h with ⟨two, imm, hrest, rfl⟩ | ⟨one, hrest, rfl⟩
    · exact .inl ⟨(needsSecondWord_iff_opcodeOf w imm).mp two, imm, hrest⟩
    · refine .inr ⟨fun op hop hi => ?_, hrest⟩
      have two := (needsSecondWord_iff_opcodeOf w 0#16).mpr ⟨op, hop, hi⟩
      simp [one] at two
  · rcases fetchInstr_cases s with ⟨two, e⟩ | ⟨one, e⟩
    · exact .inl ⟨e ▸ (needsSecondWord_iff_opcodeOf _ _).mp two, by rw [e]; exact BitVec.add_assoc ..⟩
    · refine .inr ⟨fun op hop hi => ?_, by rw [e]; rfl⟩
      rw [e] at hi
      have two := (needsSecondWord_iff_opcodeOf _ _).mpr ⟨op, hop, hi⟩
      simp [one] at two

/-- Settles O5: from 0xF000 up the look-up fails, and below it succeeds (`opcodeAt_opcodeField_eq_none`). -/
theorem undefinedWordsAreThoseFromF000 : Obligations.UndefinedWordsAreThoseFromF000 := by
  refine fun w rest => ⟨fun ⟨low, high⟩ => ?_, fun low => ?_, fun below i tail h => ?_⟩
  · rw [decode_undefined rest ((opcodeAt_opcodeField_eq_none w).mpr low), if_pos ((opcodeField_eq_thirty w).mpr ⟨low, high⟩)]
  · rw [decode_undefined rest ((opcodeAt_opcodeField_eq_none w).mpr (by omega)),
      if_neg (fun thirty => by have := (opcodeField_eq_thirty w).mp thirty; omega)]
  · have defined : opcodeAt (opcodeField w) ≠ none := fun none => by
      have := (opcodeAt_opcodeField_eq_none w).mp none
      omega
    rcases decode_cases h with ⟨-, imm, -, rfl⟩ | ⟨-, -, rfl⟩ <;>
      simpa [isUndefined_decodeWords, Option.isSome_iff_ne_none] using defined

/-- Settles O7: what is fetched is `i` (`fetchInstr_of_decode`), and a running step is the cycle around it. -/
theorem stepRunsTheDecodedInstruction : Obligations.StepRunsTheDecodedInstruction := by
  intro s i rest running _ hdecode
  refine ⟨?_, postFetch_eq s i⟩
  rw [step_running running, fetchInstr_of_decode hdecode]

end Sys2Proof.Claims
end

section

/-! PROOF. The string device (20_memory.md R58): the scan finds the first zero word, and ends unless no word is zero. -/

namespace Sys2Proof.Machine

/-- `bytes` is the string at `a`: the low bytes of nonzero words from `a` upward, up to a zero word (R58). -/
def IsStringAt (m : Memory) (a : Word) (bytes : List Byte) : Prop :=
  m.read (a + BitVec.ofNat 16 bytes.length) = 0 ∧
    ∀ k (h : k < bytes.length), m.read (a + BitVec.ofNat 16 k) ≠ 0 ∧
      bytes[k].toNat = (m.read (a + BitVec.ofNat 16 k)).toNat % 256

/-- The next address of the scan, counted from the start (R58). -/
theorem add_ofNat_succ (a : Word) (k : Nat) : a + BitVec.ofNat 16 (k + 1) = a + 1 + BitVec.ofNat 16 k := by
  rw [BitVec.add_assoc, Nat.add_comm k 1, BitVec.ofNat_add]
  rfl

theorem isStringAt_nil (m : Memory) (a : Word) : IsStringAt m a [] ↔ m.read a = 0 := by
  simp [IsStringAt]

theorem isStringAt_cons (m : Memory) (a : Word) (b : Byte) (bs : List Byte) :
    IsStringAt m a (b :: bs) ↔ m.read a ≠ 0 ∧ b = lowByte (m.read a) ∧ IsStringAt m (a + 1) bs := by
  have low : b = lowByte (m.read a) ↔ b.toNat = (m.read a).toNat % 256 := by
    rw [← BitVec.toNat_inj, lowByte_toNat]
  simp only [IsStringAt, List.length_cons, add_ofNat_succ, low]
  constructor
  · rintro ⟨zero, each⟩
    have first := each 0 (Nat.succ_pos _)
    simp only [BitVec.ofNat_eq_ofNat, BitVec.add_zero, List.getElem_cons_zero] at first
    refine ⟨first.1, first.2, zero, fun k h => ?_⟩
    simpa only [add_ofNat_succ, List.getElem_cons_succ] using each (k + 1) (Nat.succ_lt_succ h)
  · rintro ⟨nonzero, byte, zero, each⟩
    refine ⟨zero, fun k h => ?_⟩
    cases k with
    | zero => simpa using And.intro nonzero byte
    | succ k => simpa only [add_ofNat_succ, List.getElem_cons_succ] using each k (Nat.lt_of_succ_lt_succ h)

/-- The scan stops at a zero word (R58). -/
theorem stringScan_of_zero {m : Memory} {a : Word} (fuel : Nat) (zero : m.read a = 0) :
    stringScan m (fuel + 1) a = some [] := if_pos zero

/-- The scan takes a nonzero word's low byte and goes on (R58). -/
theorem stringScan_of_nonzero {m : Memory} {a : Word} (fuel : Nat) (nonzero : m.read a ≠ 0) :
    stringScan m (fuel + 1) a = (stringScan m fuel (a + 1)).map (lowByte (m.read a) :: ·) := if_neg nonzero

/-- The scan is the string at its start, when that is shorter than the words it may look at. -/
theorem stringScan_eq_some_iff (m : Memory) (fuel : Nat) (a : Word) (bytes : List Byte) :
    stringScan m fuel a = some bytes ↔ bytes.length < fuel ∧ IsStringAt m a bytes := by
  induction fuel generalizing a bytes with
  | zero => simp [stringScan]
  | succ fuel ih =>
    by_cases zero : m.read a = 0
    · rw [stringScan_of_zero fuel zero]
      cases bytes <;> simp [isStringAt_nil, isStringAt_cons, zero]
    · rw [stringScan_of_nonzero fuel zero]
      cases bytes with
      | nil => simpa [isStringAt_nil] using zero
      | cons b bs =>
        simp only [Option.map_eq_some_iff, ih, List.cons.injEq, isStringAt_cons, List.length_cons, Nat.succ_lt_succ_iff]
        constructor
        · rintro ⟨rest, ⟨short, string⟩, byte, rfl⟩
          exact ⟨short, zero, byte.symm, string⟩
        · rintro ⟨short, -, byte, string⟩
          exact ⟨bs, ⟨short, string⟩, byte.symm, rfl⟩

/-- The scan ends nowhere among the words it may look at when none of them is zero. -/
theorem stringScan_eq_none_iff (m : Memory) (fuel : Nat) (a : Word) :
    stringScan m fuel a = none ↔ ∀ k < fuel, m.read (a + BitVec.ofNat 16 k) ≠ 0 := by
  induction fuel generalizing a with
  | zero => simp [stringScan]
  | succ fuel ih =>
    have here : a + BitVec.ofNat 16 0 = a := BitVec.add_zero a
    rw [Nat.forall_lt_succ_left, here]
    simp only [add_ofNat_succ, ← ih]
    by_cases zero : m.read a = 0
    · simp [stringScan_of_zero fuel zero, zero]
    · rw [stringScan_of_nonzero fuel zero, Option.map_eq_none_iff, and_iff_right zero]

/-- 65536 words from anywhere are all of them (D19), so the scan never ends exactly when no word is zero (D27). -/
theorem stringEmit_eq_none_iff (m : Memory) (a0 : Word) : stringEmit m a0 = none ↔ ∀ a : Word, m.read a ≠ 0 := by
  rw [stringEmit, stringScan_eq_none_iff]
  refine ⟨fun h a => ?_, fun h k _ => h _⟩
  have reached : a0 + BitVec.ofNat 16 (a - a0).toNat = a := by
    rw [BitVec.ofNat_toNat, BitVec.setWidth_eq, BitVec.add_comm, BitVec.sub_add_cancel]
  simpa only [reached] using h (a - a0).toNat (a - a0).isLt

end Sys2Proof.Machine

namespace Sys2Proof.Claims

open Sys2Proof.Machine

/-- Settles O51: the string is `IsStringAt`, and `stringEmit_eq_none_iff` is the endless case. -/
theorem stringEmitScansToTheFirstZeroWord : Obligations.StringEmitScansToTheFirstZeroWord :=
  fun m a0 => ⟨stringScan_eq_some_iff m 65536 a0, stringEmit_eq_none_iff m a0⟩

end Sys2Proof.Claims
end

section

/-! PROOF. The whole step (40_execution_cycle.md R103, R120): what each part of the state keeps, from the fetch,
the meaning and the service step. -/

namespace Sys2Proof.Machine

open Sys2Proof.Claims

/-! ### What can stop a step -/

/-- A step of a running core is the service step after the meaning, which always completes (R103). -/
theorem step_running_service {s : State} (running : s.halted = false) :
    ∃ u, exec (fetchInstr s).1 (fetchInstr s).2 = .next u ∧ step s = serviceMmio u := by
  obtain ⟨u, hexec⟩ := exec_completes (fetchInstr s).1 (fetchInstr s).2
  exact ⟨u, hexec, by rw [step_running running, hexec, thenService]⟩

/-- A step of a running core that has a next state: the meaning, then the service step (R103). -/
theorem step_next_running {s t : State} (running : s.halted = false) (h : step s = .next t) :
    ∃ u, exec (fetchInstr s).1 (fetchInstr s).2 = .next u ∧ serviceMmio u = .next t := by
  obtain ⟨u, hexec, hstep⟩ := step_running_service running
  exact ⟨u, hexec, hstep ▸ h⟩

theorem serviceMmio_ne_refused (s : State) (r : Refusal) : serviceMmio s ≠ .refused r := by
  rcases serviceMmio_cases s with ⟨-, e⟩ | ⟨-, bytes, -, e⟩ | ⟨-, -, e⟩ <;> simp [e]

/-- The service step faults on a request over an array without a zero word, and on nothing else (R109, D27). -/
theorem serviceMmio_fault {s : State} {f : Fault} (h : serviceMmio s = .fault f) :
    s.pendValid = true ∧ ∀ a : Word, s.mem.read a ≠ 0 := by
  rcases serviceMmio_cases s with ⟨-, e⟩ | ⟨-, bytes, -, e⟩ | ⟨pending, endless, -⟩
  · simp [e] at h
  · simp [e] at h
  · exact ⟨pending, (stringEmit_eq_none_iff s.mem s.pendAddr).mp endless⟩

/-- A zero word anywhere lets the service step go on (R58, R109). -/
theorem serviceMmio_completes {s : State} {a : Word} (zero : s.mem.read a = 0) : ∃ t, serviceMmio s = .next t := by
  cases h : serviceMmio s with
  | next t => exact ⟨t, rfl⟩
  | fault f => exact absurd zero ((serviceMmio_fault h).2 a)
  | refused r => exact absurd h (serviceMmio_ne_refused s r)

/-! ### Memory -/

/-- The memory after a step of a running core: the meaning's one routed store, and nothing else (R46, R47, R58). -/
theorem step_mem {s t : State} (running : s.halted = false) (h : step s = .next t) :
    (storeAddress (fetchInstr s).1 (fetchInstr s).2 = none ∧ t.mem = s.mem) ∨
    ∃ a v, storeAddress (fetchInstr s).1 (fetchInstr s).2 = some a ∧
      t.mem = if a.toNat < 0xFF00 then s.mem.write a v else s.mem := by
  obtain ⟨u, hexec, hserve⟩ := step_next_running running h
  obtain ⟨-, -, -, -, -, hmem, -⟩ := serviceMmio_frame hserve
  rcases exec_mem hexec with ⟨none, kept⟩ | ⟨a, v, store, -, written⟩
  · exact .inl ⟨none, by rw [hmem, kept, fetchInstr_mem]⟩
  · exact .inr ⟨a, v, store, by rw [hmem, written, fetchInstr_mem]⟩

/-- A step leaves the array as it was or writes one word below the window (R46, R47, R59). -/
theorem step_mem_cases {s t : State} (h : step s = .next t) :
    t.mem = s.mem ∨ ∃ a v : Word, a.toNat < 0xFF00 ∧ t.mem = s.mem.write a v := by
  cases hh : s.halted with
  | true => exact .inl (by rw [halted_step_fixed hh h])
  | false =>
    rcases step_mem hh h with ⟨-, kept⟩ | ⟨a, v, -, written⟩
    · exact .inl kept
    · by_cases plain : a.toNat < 0xFF00
      · exact .inr ⟨a, v, plain, by rw [written, if_pos plain]⟩
      · exact .inl (by rw [written, if_neg plain])

/-- A step changes no byte from the window's first on (R59). -/
theorem step_window_byte {s t : State} (h : step s = .next t) {k : Nat} (window : 2 * 0xFF00 ≤ k) :
    t.mem.byteAt k = s.mem.byteAt k := by
  rcases step_mem_cases h with kept | ⟨a, v, plain, written⟩
  · rw [kept]
  · rw [written, Memory.byteAt_write_of_ne _ _ _ (by omega) (by omega)]

/-- A step changes no word of the window (R59). -/
theorem step_window_word {s t : State} (h : step s = .next t) {a : Word} (window : 0xFF00 ≤ a.toNat) :
    t.mem.read a = s.mem.read a := by
  simp only [Memory.read]
  rw [step_window_byte h (by omega), step_window_byte h (by omega)]

theorem step_mem_wf {s t : State} (h : step s = .next t) (wf : s.mem.wf) : t.mem.wf := by
  rcases step_mem_cases h with kept | ⟨a, v, -, written⟩
  · rwa [kept]
  · rw [written]
    exact Memory.write_wf _ _ _ wf

/-! ### The boundary, and progress -/

/-- A step keeps "no request pending": the service step clears what the meaning asked for (R32, R109). -/
theorem step_pendValid {s t : State} (h : step s = .next t) (idle : s.pendValid = false) : t.pendValid = false := by
  rcases step_next h with ⟨-, rfl⟩ | ⟨-, u, -, hserve⟩
  · exact idle
  · exact serviceMmio_clears hserve

theorem step_atBoundary {s t : State} (h : step s = .next t) (hs : AtBoundary s) : AtBoundary t :=
  ⟨step_mem_wf h hs.1, step_pendValid h hs.2⟩

/-- With a zero word in the window a step goes on: no store reaches that word, so any string the step prints ends there at the
latest (R58, R59). -/
theorem step_completes {s : State} {a : Word} (window : 0xFF00 ≤ a.toNat) (zero : s.mem.read a = 0) :
    ∃ t, step s = .next t := by
  cases hh : s.halted with
  | true => exact ⟨s, step_halted hh⟩
  | false =>
    obtain ⟨u, hexec, hstep⟩ := step_running_service hh
    rw [hstep]
    refine serviceMmio_completes (a := a) ?_
    rcases exec_mem hexec with ⟨-, kept⟩ | ⟨b, v, -, -, written⟩
    · rwa [kept, fetchInstr_mem]
    · rw [written, fetchInstr_mem]
      split
      · next plain => rwa [Memory.read_write_of_ne _ _ (fun e => by subst e; omega)]
      · exact zero

/-- The invariant of `step_completes` carries a run of any length. -/
theorem run_completes (fuel : Nat) {s : State} {a : Word} (hs : AtBoundary s) (window : 0xFF00 ≤ a.toNat)
    (zero : s.mem.read a = 0) : ∃ t, (run fuel s).state = some t ∧ AtBoundary t := by
  induction fuel generalizing s with
  | zero => cases hh : s.halted <;> exact ⟨s, by simp [run, hh, RunResult.state], hs⟩
  | succ fuel ih =>
    cases hh : s.halted with
    | true => exact ⟨s, by simp [run, hh, RunResult.state], hs⟩
    | false =>
      obtain ⟨t, hstep⟩ := step_completes window zero
      have later := ih (step_atBoundary hstep hs) ((step_window_word hstep window).trans zero)
      simpa [run, hh, hstep] using later

/-! ### The other parts of the state -/

theorem step_regsKeptBut {s t : State} (h : step s = .next t) : RegsKeptBut s t (destinations (fetchInstr s).1) := by
  rcases step_next h with ⟨-, rfl⟩ | ⟨-, u, hexec, hserve⟩
  · exact fun _ _ => rfl
  · intro r hr
    obtain ⟨hregs, -⟩ := serviceMmio_frame hserve
    calc t.reg r = u.reg r := congrArg (Regs.get · r) hregs
      _ = (fetchInstr s).2.reg r := exec_regsKeptBut hexec r hr
      _ = s.reg r := fetchInstr_reg s r

theorem step_flags {s t : State} (running : s.halted = false) (h : step s = .next t) :
    (flagClass (fetchInstr s).1 = .none → t.flags = s.flags) ∧
    (flagClass (fetchInstr s).1 = .zeroNegative → t.flags.c = s.flags.c ∧ t.flags.v = s.flags.v) := by
  obtain ⟨u, hexec, hserve⟩ := step_next_running running h
  obtain ⟨-, -, hflags, -⟩ := serviceMmio_frame hserve
  simpa only [hflags, fetchInstr_flags] using exec_flags hexec

/-- The table's cost includes the fetches. -/
theorem wordCount_le_cycleCost (i : Instr) : wordCount i ≤ cycleCost i := by
  cases i <;> simp [wordCount, encode, encodeR, encodeI, encodeJ, cycleCost]

theorem step_cyc {s t : State} (running : s.halted = false) (h : step s = .next t) :
    t.cyc = s.cyc + BitVec.ofNat 64 (cycleCost (fetchInstr s).1) := by
  obtain ⟨u, hexec, hserve⟩ := step_next_running running h
  obtain ⟨-, -, -, -, hcyc, -⟩ := serviceMmio_frame hserve
  rw [hcyc, exec_cyc hexec, fetchInstr_cyc, BitVec.add_assoc, ← BitVec.ofNat_add,
    Nat.add_sub_cancel' (wordCount_le_cycleCost _)]

/-- A step of a running core reports exactly when it runs an undefined row (R200, R201). -/
theorem step_report {s t : State} (running : s.halted = false) (h : step s = .next t) :
    (isUndefined (fetchInstr s).1 = true ∧ (∃ e, t.report = s.report ++ [e] ∧ e.kind = .fatalOpcode) ∧ t.halted = true) ∨
    (isUndefined (fetchInstr s).1 = false ∧ t.report = s.report) := by
  obtain ⟨u, hexec, hserve⟩ := step_next_running running h
  obtain ⟨-, -, -, hhalted, -, -, -, hreport, -⟩ := serviceMmio_frame hserve
  simpa only [hhalted, hreport, fetchInstr_report] using exec_report hexec

theorem step_report_prefix {s t : State} (h : step s = .next t) : s.report <+: t.report := by
  cases hh : s.halted with
  | true => rw [halted_step_fixed hh h]
  | false =>
    rcases step_report hh h with ⟨-, ⟨e, added, -⟩, -⟩ | ⟨-, kept⟩
    · exact ⟨[e], added.symm⟩
    · rw [kept]

theorem step_out_prefix {s t : State} (h : step s = .next t) : s.out <+: t.out := by
  rcases step_next h with ⟨-, rfl⟩ | ⟨-, u, hexec, hserve⟩
  · exact List.prefix_rfl
  · obtain ⟨-, -, -, -, -, -, -, -, emitted⟩ := serviceMmio_frame hserve
    have printed := exec_out_prefix hexec
    rw [fetchInstr_out] at printed
    exact printed.trans emitted

/-- The undefined rows are fetched exactly for a first word whose opcode field is none of the 30 opcodes (R79, R200). -/
theorem isUndefined_fetchInstr (s : State) :
    isUndefined (fetchInstr s).1 = true ↔ ∀ op : Opcode, opcodeMap op ≠ opcodeField (memRead s s.pc) := by
  obtain ⟨imm, e⟩ := fetchInstr_fst s
  rw [e, isUndefined_decodeWords, Option.isNone_iff_eq_none]
  refine ⟨fun unmapped op mapped => ?_, fun unmapped => ?_⟩
  · simp [← mapped] at unmapped
  · exact Option.eq_none_iff_forall_ne_some.mpr fun op found => unmapped op (opcodeAt_eq_some found)

/-- Fetching a first word of 0xF000 or above: no second word, and an undefined row that carries the word (R79, R201). -/
theorem fetchInstr_undefined {s : State} (h : 0xF000 ≤ (memRead s s.pc).toNat) :
    fetchInstr s = (.undefined30 (memRead s s.pc), afterFetch s) ∨
    fetchInstr s = (.undefined31 (memRead s s.pc), afterFetch s) := by
  have unmapped := (opcodeAt_opcodeField_eq_none _).mpr h
  have one : needsSecondWord (memRead s s.pc) = false := by simp [needsSecondWord, unmapped]
  have row := decodeWords_undefined 0#16 unmapped
  by_cases thirty : opcodeField (memRead s s.pc) = 30#5
  · exact .inl (by simp [fetchInstr, one, row, if_pos thirty])
  · exact .inr (by simp [fetchInstr, one, row, if_neg thirty])

/-- The opcode field as the number the fault report gives (R73, R201). -/
theorem opcodeField_eq_ofNat (w : Word) : opcodeField w = BitVec.ofNat 5 (w.toNat / 2048) := by
  rw [← opcodeField_toNat, BitVec.ofNat_toNat, BitVec.setWidth_eq]

/-- Taking the exception after one fetch, whole (R201). -/
theorem raiseFatalOpcode_afterFetch (s : State) (w : Word) :
    raiseFatalOpcode (afterFetch s) w =
      { s with
        pc := s.pc + 1
        cyc := s.cyc + 1
        halted := true
        report := s.report ++
          [{ kind := .fatalOpcode, opcode := BitVec.ofNat 5 (w.toNat / 2048), addr := s.pc, word := w }] } := by
  have address : (afterFetch s).pc - 1#16 = s.pc := BitVec.add_sub_cancel s.pc 1#16
  rw [raiseFatalOpcode_eq, address, opcodeField_eq_ofNat]
  rfl

/-- An idle service step does nothing (R109). -/
theorem serviceMmio_idle {s : State} (idle : s.pendValid = false) : serviceMmio s = .next s := by
  simp [serviceMmio, idle]

/-! ### Runs -/

theorem run_halted (fuel : Nat) {s : State} (h : s.halted = true) : run fuel s = .ended s := by
  cases fuel <;> simp [run, h]

/-- A run that ends, ends Halted, and so at the same state with any more fuel (R101, R240). -/
theorem run_ended (fuel more : Nat) {s t : State} (h : run fuel s = .ended t) :
    t.halted = true ∧ run (fuel + more) s = .ended t := by
  induction fuel generalizing s with
  | zero =>
    cases hh : s.halted with
    | false => simp [run, hh] at h
    | true =>
      rw [run_halted 0 hh] at h
      cases h
      exact ⟨hh, run_halted _ hh⟩
  | succ fuel ih =>
    cases hh : s.halted with
    | true =>
      rw [run_halted _ hh] at h
      cases h
      exact ⟨hh, run_halted _ hh⟩
    | false =>
      rw [Nat.add_right_comm]
      cases hstep : step s with
      | next u =>
        simp only [run, hh, hstep, Bool.false_eq_true, if_false] at h ⊢
        exact ih h
      | fault f => simp [run, hh, hstep] at h
      | refused r => simp [run, hh, hstep] at h

end Sys2Proof.Machine

namespace Sys2Proof.Claims

open Sys2Proof.Machine

/-- Settles O9: this is `step_atBoundary`. -/
theorem everyStepKeepsTheBoundary : Obligations.EveryStepKeepsTheBoundary := fun _ _ hs h => step_atBoundary h hs

/-- Settles O11: a window word's two bytes are among those `step_window_byte` keeps. -/
theorem noStepWritesAWindowCell : Obligations.NoStepWritesAWindowCell := fun _ _ _ h window =>
  ⟨step_window_word h window, step_window_byte h (by omega), step_window_byte h (by omega)⟩

/-- Settles O16: this is `run_completes`. -/
theorem runsNeverGetStuckWithAZeroWindowCell : Obligations.RunsNeverGetStuckWithAZeroWindowCell :=
  fun _ fuel hs ⟨_, window, zero⟩ => run_completes fuel hs window zero

/-- Settles O21: `step_mem` says which word is written, if any. -/
theorem stepChangesOnlyTheStoredWord : Obligations.StepChangesOnlyTheStoredWord := by
  intro s t running h
  rcases step_mem running h with ⟨none, kept⟩ | ⟨a, v, store, written⟩
  · rw [none]
    exact fun k => by rw [kept]
  · rw [store]
    dsimp only
    split
    · next plain => exact fun k low high => by rw [written, if_pos plain, Memory.byteAt_write_of_ne _ _ _ low high]
    · next window => exact fun k => by rw [written, if_neg window]

/-- Settles O8. -/
theorem haltedCoreNeverChanges : Obligations.HaltedCoreNeverChanges := fun _ fuel h => ⟨step_halted h, run_halted fuel h⟩

/-- Settles O10, by evaluation of the fixed state. -/
theorem resetIsAtTheBoundary : Obligations.ResetIsAtTheBoundary := ⟨State.reset_mem_wf, rfl⟩

/-- Settles O13: the cause is `isUndefined_fetchInstr`, the effect and its converse are `step_report`. -/
theorem onlyUndefinedOpcodesAreReported : Obligations.OnlyUndefinedOpcodesAreReported := by
  refine ⟨isUndefined_fetchInstr, fun s t running h => ?_, fun s => step_halted⟩
  rcases step_report running h with ⟨undef, reported⟩ | ⟨defined, kept⟩
  · exact ⟨fun _ => reported, fun defined => by simp [undef] at defined⟩
  · exact ⟨fun undef => by simp [defined] at undef, fun _ => kept⟩

/-- Settles O14: both undefined rows run `raiseFatalOpcode` on the state after one fetch, and nothing is pending after it. -/
theorem fatalOpcodeEntryIsPrecise : Obligations.FatalOpcodeEntryIsPrecise := by
  intro s running ⟨_, idle⟩ undef
  rw [← raiseFatalOpcode_afterFetch, step_running running]
  rcases fetchInstr_undefined undef with e | e <;> rw [e] <;> exact serviceMmio_idle idle

/-- Settles O15: a meaning always completes, so what stops a step is the service step. -/
theorem onlyAnEndlessStringStopsAStep : Obligations.OnlyAnEndlessStringStopsAStep := by
  refine ⟨fun s r h => ?_, fun s f h => ?_⟩
  · cases hh : s.halted with
    | true => simp [step_halted hh] at h
    | false =>
      obtain ⟨u, -, hstep⟩ := step_running_service hh
      exact serviceMmio_ne_refused u r (hstep ▸ h)
  · cases hh : s.halted with
    | true => simp [step_halted hh] at h
    | false =>
      obtain ⟨u, hexec, hstep⟩ := step_running_service hh
      exact ⟨rfl, u, hexec, serviceMmio_fault (hstep ▸ h)⟩

/-- Settles O17: this is `step_cyc`. -/
theorem cycleCounterGrowsByTheTable : Obligations.CycleCounterGrowsByTheTable := fun _ _ => step_cyc

/-- Settles O18: the old streams are prefixes of the new ones. -/
theorem outputsOnlyGrow : Obligations.OutputsOnlyGrow := by
  intro s t h
  obtain ⟨printed, hout⟩ := step_out_prefix h
  obtain ⟨reported, hreport⟩ := step_report_prefix h
  exact ⟨⟨printed, hout.symm⟩, ⟨reported, hreport.symm⟩⟩

/-- Settles O19: this is `step_regsKeptBut`. -/
theorem stepChangesOnlyDestinationRegisters : Obligations.StepChangesOnlyDestinationRegisters := fun _ _ => step_regsKeptBut

/-- Settles O20: this is `step_flags`. -/
theorem stepChangesOnlyTheFlagsItsRowNames : Obligations.StepChangesOnlyTheFlagsItsRowNames := fun _ _ => step_flags

/-- Settles O56: this is `run_ended`. -/
theorem runEndsOnlyHalted : Obligations.RunEndsOnlyHalted := fun fuel more _ _ => run_ended fuel more

end Sys2Proof.Claims
end

section

/-! PROOF. The Overflow flag (10_state.md, section 3): no operation reads it, so setting it commutes with the fetch, with every
meaning that does not write all four flags, and with the service step. -/

namespace Sys2Proof.Machine

open Sys2Proof.Claims

/-- The state with Overflow set to `b` and nothing else changed. -/
def State.setOverflow (s : State) (b : Bool) : State := s.setFlags { s.flags with v := b }

/-! ### Setting Overflow commutes with the operations over the state -/

@[simp] theorem State.setOverflow_reg (s : State) (b : Bool) (r : Reg) : (s.setOverflow b).reg r = s.reg r := rfl
@[simp] theorem State.setOverflow_sp (s : State) (b : Bool) : (s.setOverflow b).sp = s.sp := rfl
@[simp] theorem State.setOverflow_halted (s : State) (b : Bool) : (s.setOverflow b).halted = s.halted := rfl
@[simp] theorem State.setOverflow_pc (s : State) (b : Bool) : (s.setOverflow b).pc = s.pc := rfl
@[simp] theorem State.setReg_setOverflow (s : State) (b : Bool) (r : Reg) (w : Word) :
    (s.setOverflow b).setReg r w = (s.setReg r w).setOverflow b := rfl
@[simp] theorem State.setPc_setOverflow (s : State) (b : Bool) (w : Word) :
    (s.setOverflow b).setPc w = (s.setPc w).setOverflow b := rfl
@[simp] theorem State.addCyc_setOverflow (s : State) (b : Bool) (k : BitVec 64) :
    (s.setOverflow b).addCyc k = (s.addCyc k).setOverflow b := rfl
@[simp] theorem State.setMem_setOverflow (s : State) (b : Bool) (m : Memory) :
    (s.setOverflow b).setMem m = (s.setMem m).setOverflow b := rfl
@[simp] theorem State.setOverflow_mem (s : State) (b : Bool) : (s.setOverflow b).mem = s.mem := rfl

/-- A routed read does not look at Overflow. -/
@[simp] theorem memRead_setOverflow (s : State) (b : Bool) (a : Word) : memRead (s.setOverflow b) a = memRead s a := rfl

/-- A device write does not look at Overflow. -/
theorem mmioWrite_setOverflow (s : State) (b : Bool) (a v : Word) :
    mmioWrite (s.setOverflow b) a v = (mmioWrite s a v).setOverflow b := by
  unfold mmioWrite; split_ifs <;> rfl

/-- A routed write does not look at Overflow. -/
@[simp] theorem memWrite_setOverflow (s : State) (b : Bool) (a v : Word) :
    memWrite (s.setOverflow b) a v = (memWrite s a v).setOverflow b := by
  unfold memWrite; split_ifs <;> simp [mmioWrite_setOverflow]

/-- A jump keeps Overflow and does not look at it (D8). -/
theorem jumpIf_setOverflow (taken : Bool) (addr : Word) (s : State) (b : Bool) :
    jumpIf taken addr (s.setOverflow b) = (jumpIf taken addr s).setOverflow b := by
  cases taken <;> rfl

/-- A fetch does not look at Overflow (R102). -/
theorem afterFetch_setOverflow (s : State) (b : Bool) : afterFetch (s.setOverflow b) = (afterFetch s).setOverflow b := rfl

theorem fetchInstr_setOverflow (s : State) (b : Bool) :
    fetchInstr (s.setOverflow b) = ((fetchInstr s).1, (fetchInstr s).2.setOverflow b) := by
  cases two : needsSecondWord (memRead s s.pc) <;> simp [fetchInstr, two, afterFetch_setOverflow]

/-- The service step does not look at Overflow (R109). -/
theorem serviceMmio_setOverflow {s t : State} (b : Bool) (h : serviceMmio s = .next t) :
    serviceMmio (s.setOverflow b) = .next (t.setOverflow b) := by
  rcases serviceMmio_cases s with ⟨idle, e⟩ | ⟨pending, bytes, he, e⟩ | ⟨-, -, e⟩
  · rw [e] at h
    cases h
    exact serviceMmio_idle idle
  · rw [e] at h
    cases h
    rw [serviceMmio, if_pos (show (s.setOverflow b).pendValid = true from pending),
      show stringEmit (s.setOverflow b).mem (s.setOverflow b).pendAddr = some bytes from he]
    rfl
  · simp [e] at h

/-! ### The instructions -/

/-- The Overflow flag a meaning leaves when it starts with Overflow at `b`: what it computes when its row of R26 names all four
flags, and `b` otherwise. -/
def overflowAfter (i : Instr) (t : State) (b : Bool) : Bool := if flagClass i = .all then t.flags.v else b

/-- No meaning reads Overflow: started with another value it does the same, Overflow apart. -/
theorem exec_setOverflow {i : Instr} {s t : State} (b : Bool) (h : exec i s = .next t) :
    exec i (s.setOverflow b) = .next (t.setOverflow (overflowAfter i t b)) := by
  cases i with
  | nop | halt | ret | pop rd | undefined30 w | undefined31 w | mov rd rs | ldi rd imm | lea rd addr | ldAbs rd addr
  | ldInd rd rs => cases h; rfl
  | jmp addr | jz addr | jnz addr | jc addr | jn addr =>
    cases h
    exact congrArg Host.Outcome.next (jumpIf_setOverflow _ addr s b)
  | stAbs rd addr | stInd rd rs =>
    cases h
    exact congrArg Host.Outcome.next (memWrite_setOverflow s b _ _)
  | push r | call addr =>
    simp only [exec_push, exec_call, Host.Outcome.next.injEq] at h ⊢
    subst h
    simp [overflowAfter, flagClass]
  | _ => cases h; rfl

/-- Steps from states that differ in Overflow alone differ in Overflow alone. -/
theorem step_setOverflow {s t : State} (b : Bool) (h : step s = .next t) :
    ∃ c, step (s.setOverflow b) = .next (t.setOverflow c) := by
  cases hh : s.halted with
  | true =>
    rw [halted_step_fixed hh h]
    exact ⟨b, step_halted hh⟩
  | false =>
    obtain ⟨u, hexec, hserve⟩ := step_next_running hh h
    refine ⟨overflowAfter (fetchInstr s).1 u b, ?_⟩
    rw [step_running (by simpa using hh), fetchInstr_setOverflow, exec_setOverflow b hexec]
    exact serviceMmio_setOverflow _ hserve

end Sys2Proof.Machine

namespace Sys2Proof.Claims

open Sys2Proof.Machine

/-- Settles O22: this is `step_setOverflow`, with Overflow put back afterwards. -/
theorem noInstructionReadsOverflow : Obligations.NoInstructionReadsOverflow := by
  intro s t b h
  obtain ⟨c, hstep⟩ := step_setOverflow b h
  exact ⟨t.setOverflow c, hstep, rfl⟩

end Sys2Proof.Claims
end

section

/-! PROOF. The moves, the ALU instructions and the shifts (41_moves.md, 42_arithmetic.md, 43_logic_shift.md): each is the register
write of R105 on a result whose value and flags are numbers. -/

namespace Sys2Proof.Machine

open Sys2Proof.Claims

/-! ### Writing an ALU result -/

/-- The register write after an ALU function touches what a register write touches (R105, R110 to R115). -/
theorem writeAlu_registerWritten (s : State) (rd : Reg) (x : AluResult) :
    RegisterWritten s (writeAlu s rd x) rd x.value :=
  writeReg_registerWritten (s.setFlags x.flags) rd x.value

/-- The Carry of an ALU result stays as the ALU function gave it: the register write sets Z and N alone. -/
theorem writeAlu_flags_c (s : State) (rd : Reg) (x : AluResult) : (writeAlu s rd x).flags.c = x.flags.c := rfl

/-! ### The shifts as numbers -/

/-- The shift amount is the value modulo 16 (R113, R114). -/
@[simp] theorem shiftAmount_eq (s : Word) : shiftAmount s = s.toNat % 16 := by
  simp [shiftAmount]

/-- A bit of a word as a number. -/
theorem getLsbD_iff (w : Word) (k : Nat) : w.getLsbD k = true ↔ w.toNat / 2 ^ k % 2 = 1 := by
  simp [BitVec.getLsbD, Nat.testBit_eq_decide_div_mod_eq]

/-- `AluShl` multiplies by the power of two; amount 0 is the power 1 (R113, D24). -/
theorem aluShl_value (a s : Word) (c : Bool) :
    (aluShl a s c).value.toNat = a.toNat * 2 ^ (s.toNat % 16) % 65536 := by
  have value : (aluShl a s c).value = if s.toNat % 16 = 0 then a else a <<< (s.toNat % 16) := by
    rw [← shiftAmount_eq]; rfl
  rw [value]
  split
  · next zero => rw [zero, pow_zero, Nat.mul_one, Nat.mod_eq_of_lt a.isLt]
  · rw [BitVec.toNat_shiftLeft, Nat.shiftLeft_eq]

/-- `AluShr` divides by the power of two; amount 0 is the power 1 (R114, D24). -/
theorem aluShr_value (a s : Word) (c : Bool) : (aluShr a s c).value.toNat = a.toNat / 2 ^ (s.toNat % 16) := by
  have value : (aluShr a s c).value = if s.toNat % 16 = 0 then a else a >>> (s.toNat % 16) := by
    rw [← shiftAmount_eq]; rfl
  rw [value]
  split
  · next zero => rw [zero, pow_zero, Nat.div_one]
  · rw [BitVec.toNat_ushiftRight, Nat.shiftRight_eq_div_pow]

/-- The Carry of `AluShl`: kept at amount 0, else the last bit out (R113, D24). -/
theorem aluShl_carry (a s : Word) (c : Bool) :
    (aluShl a s c).flags.c = if s.toNat % 16 = 0 then c else a.getLsbD (16 - s.toNat % 16) := by
  rw [← shiftAmount_eq]; rfl

/-- The Carry of `AluShr`: kept at amount 0, else the last bit out (R114, D24). -/
theorem aluShr_carry (a s : Word) (c : Bool) :
    (aluShr a s c).flags.c = if s.toNat % 16 = 0 then c else a.getLsbD (s.toNat % 16 - 1) := by
  rw [← shiftAmount_eq]; rfl

end Sys2Proof.Machine

namespace Sys2Proof.Claims

open Sys2Proof.Machine

/-- Settles O27: each of the three is one register write. -/
theorem movesWriteTheirOperand : Obligations.MovesWriteTheirOperand := fun rd rs imm s =>
  ⟨⟨_, exec_mov rd rs s, writeReg_registerWritten s rd _, rfl, rfl⟩,
    ⟨_, exec_ldi rd imm s, writeReg_registerWritten s rd _, rfl, rfl⟩,
    ⟨_, exec_lea rd imm s, writeReg_registerWritten s rd _, rfl, rfl⟩⟩

/-- Settles O28: both write `aluAdd` of the register's value and the other operand, and R110 is O24. -/
theorem additionsAreExact : Obligations.AdditionsAreExact := by
  intro rd rs imm s sum
  have added (b : Word) : sum b (writeAlu s rd (aluAdd (s.reg rd) b)) := by
    obtain ⟨value, carry, overflow, -⟩ := aluAddIsExact (s.reg rd) b
    exact ⟨⟨_, value, writeAlu_registerWritten s rd _⟩, carry, overflow⟩
  exact ⟨⟨_, exec_add rd rs s, added (s.reg rs)⟩, ⟨_, exec_addi rd imm s, added imm⟩⟩

/-- Settles O29: both write `aluSub` of the register's value and the other operand, and R111 is O25. -/
theorem subtractionsAreExact : Obligations.SubtractionsAreExact := by
  intro rd rs imm s difference
  have subtracted (b : Word) : difference b (writeAlu s rd (aluSub (s.reg rd) b)) := by
    obtain ⟨value, carry, overflow, -⟩ := aluSubIsExact (s.reg rd) b
    exact ⟨⟨_, value, writeAlu_registerWritten s rd _⟩, carry, overflow⟩
  exact ⟨⟨_, exec_sub rd rs s, subtracted (s.reg rs)⟩, ⟨_, exec_subi rd imm s, subtracted imm⟩⟩

/-- Settles O30: the flags are those of `aluSub` (O25), whose difference is 0 exactly for equal operands. -/
theorem compareWritesFlagsAlone : Obligations.CompareWritesFlagsAlone := by
  intro rd rs s
  obtain ⟨value, carry, overflow, zero, negative⟩ := aluSubIsExact (s.reg rd) (s.reg rs)
  refine ⟨_, exec_cmp rd rs s, ?_, carry, overflow, by rw [negative, value]⟩
  have ha := (s.reg rd).isLt
  have hb := (s.reg rs).isLt
  rw [zero, value, ← BitVec.toNat_inj]
  omega

/-- Settles O31: MUL writes `aluMul`, and R115 is O26. -/
theorem multiplyKeepsTheLowHalf : Obligations.MultiplyKeepsTheLowHalf := by
  intro rd rs s
  obtain ⟨value, carry, overflow, -⟩ := aluMulKeepsTheLowHalf (s.reg rd) (s.reg rs)
  exact ⟨_, exec_mul rd rs s, ⟨_, value, writeAlu_registerWritten s rd _⟩, carry, overflow⟩

/-- Settles O32: each writes `aluLogic` of the bitwise result, which clears C and V (R112). -/
theorem logicIsBitwiseAndClearsCarryAndOverflow : Obligations.LogicIsBitwiseAndClearsCarryAndOverflow := by
  intro rd rs s logic
  have written {i : Instr} {v : Word} {bit : Nat → Bool} (h : exec i s = .next (writeAlu s rd (aluLogic v)))
      (bits : ∀ k, k < 16 → v.getLsbD k = bit k) : logic i bit :=
    ⟨_, v, h, writeAlu_registerWritten s rd (aluLogic v), bits, rfl, rfl⟩
  refine ⟨written (exec_and rd rs s) fun k _ => BitVec.getLsbD_and, written (exec_or rd rs s) fun k _ => BitVec.getLsbD_or,
    written (exec_xor rd rs s) fun k _ => BitVec.getLsbD_xor, written (exec_not rd rs s) fun k hk => ?_⟩
  simp [hk]

/-- Settles O33: SHL writes `aluShl`, which the lemmas above give as numbers. -/
theorem shiftLeftByTheLowFourBits : Obligations.ShiftLeftByTheLowFourBits := by
  intro rd rs s n
  refine ⟨_, exec_shl rd rs s, ⟨_, aluShl_value _ _ _, writeAlu_registerWritten s rd _⟩, ?_, rfl⟩
  rw [writeAlu_flags_c, aluShl_carry]
  split
  · rfl
  · exact getLsbD_iff _ _

/-- Settles O34: SHR writes `aluShr`, which the lemmas above give as numbers. -/
theorem shiftRightIsLogical : Obligations.ShiftRightIsLogical := by
  intro rd rs s n
  refine ⟨_, exec_shr rd rs s, ⟨_, aluShr_value _ _ _, writeAlu_registerWritten s rd _⟩, ?_, rfl⟩
  rw [writeAlu_flags_c, aluShr_carry]
  split
  · rfl
  · exact getLsbD_iff _ _

end Sys2Proof.Claims
end

section

/-! PROOF. Loads, stores, the stack and the transfers of control (44_stack.md, 45_load_store.md, 46_control_transfer.md,
47_system.md), from the routed read and the routed write. -/

namespace Sys2Proof.Machine

open Sys2Proof.Claims

/-! ### The routed read and write in the statements' words -/

theorem memRead_eq_routedValue (s : State) (a : Word) : memRead s a = routedValue s a := by
  rcases memRead_spec s a with ⟨plain, e⟩ | ⟨rfl, e⟩ | ⟨window, other, e⟩ <;> rw [e, routedValue]
  · rw [if_pos plain]
  · exact BitVec.eq_of_toNat_eq (by simp)
  · have counter : a.toNat ≠ 0xFF20 := fun h => other (BitVec.eq_of_toNat_eq h)
    rw [if_neg (by omega), if_neg counter]
    rfl

/-- In plain storage the routed read is the array's cell (R44). -/
theorem routedValue_plain (s : State) {a : Word} (plain : a.toNat < 0xFF00) : routedValue s a = s.mem.read a :=
  if_pos plain

/-- A routed write to 0xFF10 counts one and records the request (R45, R53): the other cases of `memWrite_spec` are at other
addresses. -/
theorem memWrite_stringOut (s : State) (v : Word) : memWrite s 0xFF10 v = (s.addCyc 1#64).requestString v := by
  rcases memWrite_spec s 0xFF10 v with ⟨plain, -⟩ | ⟨char, -⟩ | ⟨-, string⟩ | ⟨decimal, -⟩ | ⟨-, -, other, -⟩
  · exact absurd plain (by decide)
  · exact absurd char (by decide)
  · exact string
  · exact absurd decimal (by decide)
  · exact absurd rfl other

/-- A routed write to the read-only counter counts one and does nothing (R45, R55). -/
theorem memWrite_cycleCounter (s : State) (v : Word) : memWrite s 0xFF20 v = s.addCyc 1#64 := by
  rcases memWrite_spec s 0xFF20 v with ⟨plain, -⟩ | ⟨char, -⟩ | ⟨string, -⟩ | ⟨decimal, -⟩ | ⟨-, -, -, -, e⟩
  · exact absurd plain (by decide)
  · exact absurd char (by decide)
  · exact absurd string (by decide)
  · exact absurd decimal (by decide)
  · exact e

/-- The byte the character device takes, as the statements write it (R52). -/
theorem lowByte_eq_ofNat (v : Word) : lowByte v = BitVec.ofNat 8 v.toNat :=
  BitVec.eq_of_toNat_eq (by simp [lowByte])

/-- A routed write does what `Stored` says, case by case of `memWrite_spec`; a canonical memory is needed for the word to read
back. -/
theorem memWrite_stored (s : State) (a v : Word) (wf : s.mem.wf) : Stored s (memWrite s a v) a v := by
  unfold Stored
  rcases memWrite_spec s a v with ⟨plain, e⟩ | ⟨rfl, e⟩ | ⟨rfl, e⟩ | ⟨rfl, e⟩ | ⟨window, char, string, decimal, e⟩ <;> rw [e]
  · rw [if_pos plain]
    exact ⟨Memory.read_write_self s.mem a v wf, fun k => Memory.byteAt_write_of_ne s.mem a v, rfl, rfl, rfl⟩
  · exact ⟨fun _ => rfl, by rw [lowByte_eq_ofNat]; rfl, rfl, rfl⟩
  · exact ⟨fun _ => rfl, rfl, rfl, rfl⟩
  · exact ⟨fun _ => rfl, rfl, rfl, rfl⟩
  · have notChar : a.toNat ≠ 0xFF00 := BitVec.toNat_ne_iff_ne.mpr char
    have notString : a.toNat ≠ 0xFF10 := BitVec.toNat_ne_iff_ne.mpr string
    have notDecimal : a.toNat ≠ 0xFF12 := BitVec.toNat_ne_iff_ne.mpr decimal
    rw [if_neg (by omega), if_neg notChar, if_neg notString, if_neg notDecimal]
    exact ⟨fun _ => rfl, rfl, rfl, rfl⟩

/-- Reports and the halted flag are no business of a routed write. -/
theorem memWrite_controlKept (s : State) (a v : Word) : ControlKept s (memWrite s a v) :=
  ⟨memWrite_halted s a v, memWrite_report s a v⟩

end Sys2Proof.Machine

namespace Sys2Proof.Claims

open Sys2Proof.Machine

/-! ### Loads and stores -/

/-- Settles O35: both loads are a register write of the routed word. -/
theorem loadsReadTheRoutedWord : Obligations.LoadsReadTheRoutedWord := by
  intro rd rs addr s
  simp only [← memRead_eq_routedValue]
  exact ⟨⟨_, exec_ldAbs rd addr s, writeReg_registerWritten s rd _, rfl, rfl⟩,
    ⟨_, exec_ldInd rd rs s, writeReg_registerWritten s rd _, rfl, rfl⟩⟩

/-- Settles O36: both stores are the routed write, `memWrite_stored`. -/
theorem storesWriteTheRoutedWord : Obligations.StoresWriteTheRoutedWord := by
  intro rd rs addr s wf store
  have written {i : Instr} {a : Word} (h : exec i s = .next (memWrite s a (s.reg rd))) : store i a :=
    ⟨_, h, memWrite_stored s a _ wf, memWrite_regs s a _, memWrite_flags s a _, memWrite_pc s a _, memWrite_cyc s a _,
      memWrite_controlKept s a _⟩
  exact ⟨written (exec_stAbs rd addr s), written (exec_stInd rd rs s)⟩

/-! ### The stack -/

/-- Settles O37: PUSH is the routed write at the decremented SP. -/
theorem pushStoresBelowTheStackPointer : Obligations.PushStoresBelowTheStackPointer := by
  intro r s wf
  have lowered := State.setReg_sp s .r7 (s.sp - 1)
  exact ⟨_, exec_push r s, (memWrite_reg _ _ _ .r7).trans lowered, exec_regsKeptBut (exec_push r s),
    memWrite_stored (s.setReg .r7 (s.sp - 1)) _ _ wf, memWrite_flags _ _ _, memWrite_pc _ _ _, memWrite_cyc _ _ _,
    memWrite_controlKept (s.setReg .r7 (s.sp - 1)) _ _⟩

/-- Settles O38: POP is the register write of the routed word, then the raw increment of SP. -/
theorem popReadsThenRaisesTheStackPointer : Obligations.PopReadsThenRaisesTheStackPointer := by
  intro rd s
  rw [← memRead_eq_routedValue]
  refine ⟨_, exec_pop rd s, fun other => ?_, fun same => ?_, exec_regsKeptBut (exec_pop rd s),
    znOf_of_zeroFlag_negativeFlag rfl rfl, rfl, rfl, rfl, rfl, ⟨fun _ => rfl, rfl, ⟨rfl, rfl⟩, rfl, rfl⟩⟩
  · simp [other, other.symm]
  · simp [same]

/-- Settles O40: CALL is the routed write of the post-fetch pc at the decremented SP, then the jump. -/
theorem callPushesThePostFetchPc : Obligations.CallPushesThePostFetchPc := by
  intro addr s wf
  have lowered := State.setReg_sp s .r7 (s.sp - 1)
  exact ⟨_, exec_call addr s, rfl, (memWrite_reg _ _ _ .r7).trans lowered, exec_regsKeptBut (exec_call addr s),
    memWrite_stored (s.setReg .r7 (s.sp - 1)) _ _ wf, memWrite_flags _ _ _, memWrite_cyc _ _ _,
    memWrite_controlKept (s.setReg .r7 (s.sp - 1)) _ _⟩

/-- Settles O41: RET is the raw increment of SP and a change of pc. -/
theorem returnPopsThePc : Obligations.ReturnPopsThePc := by
  intro s
  rw [← memRead_eq_routedValue]
  exact ⟨_, exec_ret s, rfl, State.setReg_sp s .r7 (s.sp + 1), exec_regsKeptBut (exec_ret s), rfl, rfl,
    ⟨fun _ => rfl, rfl, ⟨rfl, rfl⟩, rfl, rfl⟩⟩

/-- Settles O44: what O37 stores at the new SP is what O38 reads there, after a fetch, which changes no memory. -/
theorem pushThenPopCopiesTheRegister : Obligations.PushThenPopCopiesTheRegister := by
  intro r d s t wf hr hd plain hpush
  obtain ⟨t', ht', tsp, tregs, tstored, -⟩ := pushStoresBelowTheStackPointer r s wf
  obtain rfl : t' = t := Host.Outcome.next.inj (ht'.symm.trans hpush)
  obtain ⟨u, hpop, popped, -, uregs, zn, -⟩ := popReadsThenRaisesTheStackPointer d (afterFetch t')
  obtain ⟨ud, usp⟩ := popped hd
  rw [Stored, if_pos plain, if_neg hr] at tstored
  have word : routedValue (afterFetch t') (afterFetch t').sp = s.reg r := by
    rw [afterFetch_sp, tsp, routedValue_plain _ plain]
    exact tstored.1
  have restored : u.sp = s.sp := by rw [usp, afterFetch_sp, tsp, BitVec.sub_add_cancel]
  rw [word] at ud zn
  refine ⟨u, hpop, ud, restored, fun q hq => ?_, zn⟩
  by_cases h7 : q = .r7
  · subst h7
    exact restored
  · have kept : u.reg q = t'.reg q := uregs q (by simpa [h7] using hq)
    rw [kept, tregs q (by simpa using h7)]

/-- Settles O45: RET (O41) reads the word CALL stored (O40), which is still at SP. -/
theorem callThenReturnComesBack : Obligations.CallThenReturnComesBack := by
  intro addr callAt s t u wf hpc plain hcall hsp hword
  obtain ⟨t', ht', -, tsp, -, tstored, -⟩ := callPushesThePostFetchPc addr s wf
  obtain rfl : t' = t := Host.Outcome.next.inj (ht'.symm.trans hcall)
  obtain ⟨v, hret, vpc, vsp, -⟩ := returnPopsThePc u
  rw [Stored, if_pos plain] at tstored
  refine ⟨v, hret, ?_, by rw [vsp, hsp, tsp, BitVec.sub_add_cancel]⟩
  rw [vpc, hsp, routedValue_plain u (tsp ▸ plain), hword, tsp, tstored.1, hpc]

/-- Settles O46: `exec_mem` gives the memory after a store, and a fetch reads the array at once. -/
theorem storeIsSeenByTheNextFetch : Obligations.StoreIsSeenByTheNextFetch := by
  intro i s t a wf hstore plain hexec
  rcases exec_mem hexec with ⟨none, -⟩ | ⟨b, v, some, word, written⟩
  · simp [none] at hstore
  · obtain rfl : b = a := by simpa [some] using hstore
    refine ⟨v, word, fun u hmem hpc => ?_⟩
    rw [fetchedWord_eq, memRead_eq_routedValue, hpc, routedValue_plain u plain, hmem, written, if_pos plain,
      Memory.read_write_self _ _ _ wf]

/-! ### Jumps, NOP, HALT and the undefined rows -/

/-- Settles O39: a jump is a choice of pc (`jumpIf_eq_setPc`). -/
theorem jumpsTestTheirFlag : Obligations.JumpsTestTheirFlag := by
  intro addr s
  simp only [exec_jmp, exec_jz, exec_jnz, exec_jc, exec_jn, jumpIf_eq_setPc, Bool.not_eq_true']
  exact ⟨rfl, rfl, rfl, rfl, rfl⟩

/-- Settles O42: both are their equations. -/
theorem nopDoesNothingAndHaltHalts : Obligations.NopDoesNothingAndHaltHalts := fun s => ⟨exec_nop s, exec_halt s⟩

/-- Settles O43: both rows run `raiseFatalOpcode`; the opcode field is the word's top five bits as a number. -/
theorem undefinedOpcodesTakeTheException : Obligations.UndefinedOpcodesTakeTheException := by
  intro w s after
  have raised : raiseFatalOpcode s w = after := by
    rw [raiseFatalOpcode_eq, opcodeField_eq_ofNat]
    rfl
  exact ⟨by rw [exec_undefined30, raised], by rw [exec_undefined31, raised]⟩

end Sys2Proof.Claims
end

section

/-! PROOF. The other devices (20_memory.md, section 4): the string request, the decimal text, and the read-only cycle counter. -/

namespace Sys2Proof.Machine

open Sys2Proof.Claims

/-! ### The decimal text (R54, D14) -/

theorem digitByte_toNat {d : Nat} (h : d < 10) : (digitByte d).toNat = 0x30 + d := by
  rw [digitByte, BitVec.toNat_ofNat, Nat.mod_eq_of_lt (by omega)]

/-- The digits are the decimal numeral of `n`: at least one, each a digit's code, of value `n`, without a leading zero unless
`n` is 0 (R54, D14). -/
structure IsNumeral (n : Nat) (digits : List Byte) : Prop where
  nonempty : digits ≠ []
  inRange : ∀ d ∈ digits, 0x30 ≤ d.toNat ∧ d.toNat ≤ 0x39
  value : digitsValue digits = n
  noLeadingZero : n ≠ 0 → digits.head? ≠ some 0x30
  zero : n = 0 → digits = [0x30]

theorem digitsValue_append_singleton (digits : List Byte) (d : Byte) :
    digitsValue (digits ++ [d]) = 10 * digitsValue digits + (d.toNat - 0x30) := by
  simp [digitsValue]

theorem isNumeral_singleton {n : Nat} (h : n < 10) : IsNumeral n [digitByte n] where
  nonempty := by simp
  inRange d hd := by
    obtain rfl : d = digitByte n := by simpa using hd
    rw [digitByte_toNat h]
    omega
  value := by simp [digitsValue, digitByte_toNat h]
  noLeadingZero nonzero head := by
    have code : digitByte n = 0x30 := by simpa using head
    have number : 0x30 = 0x30 + n := (congrArg BitVec.toNat code).symm.trans (digitByte_toNat h)
    omega
  zero zero := by rw [zero]; rfl

/-- One more digit at the end of a numeral that is not 0. -/
theorem isNumeral_append {n : Nat} {digits : List Byte} (large : 10 ≤ n) (h : IsNumeral (n / 10) digits) :
    IsNumeral n (digits ++ [digitByte (n % 10)]) where
  nonempty := by simp
  inRange d hd := by
    rcases List.mem_append.mp hd with earlier | last
    · exact h.inRange d earlier
    · obtain rfl : d = digitByte (n % 10) := by simpa using last
      rw [digitByte_toNat (Nat.mod_lt n (by decide))]
      omega
  value := by
    rw [digitsValue_append_singleton, h.value, digitByte_toNat (Nat.mod_lt n (by decide))]
    omega
  noLeadingZero _ := by
    rw [List.head?_append_of_ne_nil _ h.nonempty]
    exact h.noLeadingZero (by omega)
  zero zero := absurd zero (by omega)

/-- The digits of a number below 10^(fuel + 1) come out before `acc`, at most `fuel + 1` of them. -/
theorem decimalDigits_isNumeral (fuel : Nat) {n : Nat} (h : n < 10 ^ (fuel + 1)) :
    ∃ digits, (∀ acc, decimalDigits fuel n acc = digits ++ acc) ∧ digits.length ≤ fuel + 1 ∧ IsNumeral n digits := by
  induction fuel generalizing n with
  | zero =>
    have small : n < 10 := by simpa using h
    exact ⟨[digitByte n], fun acc => by simp [decimalDigits, Nat.mod_eq_of_lt small], le_rfl, isNumeral_singleton small⟩
  | succ fuel ih =>
    by_cases small : n < 10
    · exact ⟨[digitByte n], fun acc => by simp [decimalDigits, small], by simp, isNumeral_singleton small⟩
    · obtain ⟨digits, emitted, short, numeral⟩ := ih (n := n / 10) (by rw [pow_succ] at h; omega)
      refine ⟨digits ++ [digitByte (n % 10)], fun acc => ?_, by simpa using short, isNumeral_append (by omega) numeral⟩
      simp [decimalDigits, small, emitted]

/-! ### The cycle counter (R56) -/

/-- A read of 0xFF20 `k` counts later (R56, R28): the wrap of the counter at 2^64 is lost in its low 16 bits. -/
theorem memRead_cycleCounter {s : State} {c : BitVec 64} {k : Nat} (h : s.cyc = c + BitVec.ofNat 64 k) :
    memRead s 0xFF20 = BitVec.ofNat 16 (c.toNat + k) := by
  rw [memRead_eq_routedValue, show routedValue s 0xFF20 = BitVec.ofNat 16 s.cyc.toNat from rfl, h]
  apply BitVec.eq_of_toNat_eq
  simp only [BitVec.toNat_ofNat, BitVec.toNat_add]
  omega

/-- A step that runs a register write leaves the value written in the register. -/
theorem step_reg_of_writeReg {s p t : State} {i : Instr} {rd : Reg} {v : Word} (running : s.halted = false)
    (h : step s = .next t) (fetched : fetchInstr s = (i, p)) (hexec : exec i p = .next (writeReg p rd v)) :
    t.reg rd = v := by
  obtain ⟨u, hexec', hserve⟩ := step_next_running running h
  rw [fetched, hexec] at hexec'
  cases hexec'
  obtain ⟨hregs, -⟩ := serviceMmio_frame hserve
  calc t.reg rd = (writeReg p rd v).reg rd := congrArg (Regs.get · rd) hregs
    _ = v := by simp

end Sys2Proof.Machine

namespace Sys2Proof.Claims

open Sys2Proof.Machine

/-- Settles O48: this is `memWrite_cycleCounter`. -/
theorem cycleCounterWriteIsANoOp : Obligations.CycleCounterWriteIsANoOp := memWrite_cycleCounter

/-- Settles O49: `memWrite_stringOut`, then the service step with that request pending. -/
theorem stringRequestIsServedByTheSameInstruction : Obligations.StringRequestIsServedByTheSameInstruction := by
  refine fun s v => ⟨memWrite_stringOut s v, fun bytes h => ?_⟩
  rw [memWrite_stringOut]
  rcases serviceMmio_cases ((s.addCyc 1#64).requestString v) with ⟨idle, -⟩ | ⟨-, bytes', found, e⟩ | ⟨-, endless, -⟩
  · simp at idle
  · obtain rfl : bytes' = bytes := Option.some.inj (found.symm.trans h)
    exact e
  · exact absurd (endless.symm.trans h) nofun

/-- Settles O50: five digits hold every 16-bit value (`decimalDigits_isNumeral`). -/
theorem decimalOutIsTheUnsignedNumber : Obligations.DecimalOutIsTheUnsignedNumber := by
  intro v
  have hv := v.isLt
  obtain ⟨digits, emitted, short, numeral⟩ := decimalDigits_isNumeral 4 (n := v.toNat) (by omega)
  have text : decimalText v = digits ++ [0x0A] := by rw [decimalText, emitted, List.append_nil]
  exact ⟨digits, text, numeral.nonempty, short, numeral.inRange, numeral.value, numeral.noLeadingZero, numeral.zero⟩

/-- Settles O52: the load reads the counter in the state after its own fetches, before its register write counts; the total is
`step_cyc`. -/
theorem cycleCounterLoadSeesItsOwnFetches : Obligations.CycleCounterLoadSeesItsOwnFetches := by
  refine ⟨fun s t rd running _ fetched h => ?_, fun s t rd rs running _ fetched address h => ?_⟩
  · have total := step_cyc running h
    have loaded := step_reg_of_writeReg running h fetched (exec_ldAbs rd _ _)
    rw [fetched] at total
    exact ⟨loaded.trans (memRead_cycleCounter (BitVec.add_assoc ..)), total⟩
  · have total := step_cyc running h
    have loaded := step_reg_of_writeReg running h fetched (exec_ldInd rd rs _)
    rw [fetched] at total
    rw [afterFetch_reg, address] at loaded
    exact ⟨loaded.trans (memRead_cycleCounter rfl), total⟩

end Sys2Proof.Claims
end

section

/-! PROOF. The host's side (70_reset_and_hazards.md): power-on, reset and load, and the binary image (30_encoding.md, section 5). -/

namespace Sys2Proof.Machine

/-! ### Loading an image (R235) -/

/-- An image leaves the words outside it alone. -/
theorem loadWords_read_outside (ws : List Word) (m : Memory) {base : Nat} (fits : base + ws.length ≤ 65536) {a : Word}
    (outside : a.toNat < base ∨ base + ws.length ≤ a.toNat) : (loadWords m base ws).read a = m.read a := by
  induction ws generalizing m base with
  | nil => rfl
  | cons w rest ih =>
    rw [List.length_cons] at fits outside
    have apart : a ≠ BitVec.ofNat 16 base := fun same => by
      have := congrArg BitVec.toNat same
      rw [BitVec.toNat_ofNat] at this
      omega
    rw [loadWords, ih _ (by omega) (by omega), Memory.read_write_of_ne _ _ apart]

/-- An image reads back, word for word from its base. -/
theorem loadWords_read_inside (ws : List Word) {m : Memory} (wf : m.wf) {base : Nat} (fits : base + ws.length ≤ 65536)
    {k : Nat} (h : k < ws.length) : (loadWords m base ws).read (BitVec.ofNat 16 (base + k)) = ws[k] := by
  induction ws generalizing m base k with
  | nil => exact absurd h (Nat.not_lt_zero k)
  | cons w rest ih =>
    rw [List.length_cons] at fits
    rw [loadWords]
    cases k with
    | zero =>
      have first : (BitVec.ofNat 16 base).toNat = base := by
        rw [BitVec.toNat_ofNat]
        omega
      show (loadWords _ (base + 1) rest).read (BitVec.ofNat 16 base) = w
      rw [loadWords_read_outside rest _ (by omega) (by omega), Memory.read_write_self _ _ _ wf]
    | succ k =>
      rw [show base + (k + 1) = base + 1 + k by omega]
      exact ih (Memory.write_wf _ _ _ wf) (by omega) (Nat.lt_of_succ_lt_succ h)

end Sys2Proof.Machine

namespace Sys2Proof

/-! ### The binary image (R97) -/

/-- The two bytes of a word, low byte first, make the word again. -/
theorem word_of_bytes (w : Word) :
    BitVec.ofNat 16 ((BitVec.ofNat 8 w.toNat).toNat + 256 * (BitVec.ofNat 8 (w.toNat / 256)).toNat) = w := by
  have hw := w.isLt
  apply BitVec.eq_of_toNat_eq
  simp only [BitVec.toNat_ofNat]
  omega

/-- An image's bytes are read back as its words, whatever bytes follow. -/
theorem wordsOfBytes_bytesOfWords_append (ws : List Word) (bs : List Byte) :
    wordsOfBytes (bytesOfWords ws ++ bs) = ws ++ wordsOfBytes bs := by
  induction ws with
  | nil => rfl
  | cons w rest ih => simp only [bytesOfWords, List.cons_append, wordsOfBytes, word_of_bytes, ih]

theorem bytesOfWords_length (ws : List Word) : (bytesOfWords ws).length = 2 * ws.length := by
  induction ws with
  | nil => rfl
  | cons w rest ih => simp only [bytesOfWords, List.length_cons, ih]; omega

/-- Word `k` of an image is at bytes 2k (low) and 2k + 1 (high). -/
theorem bytesOfWords_getElem? (ws : List Word) {k : Nat} (h : k < ws.length) :
    (bytesOfWords ws)[2 * k]?.map BitVec.toNat = some (ws[k].toNat % 256) ∧
      (bytesOfWords ws)[2 * k + 1]?.map BitVec.toNat = some (ws[k].toNat / 256) := by
  induction ws generalizing k with
  | nil => exact absurd h (Nat.not_lt_zero k)
  | cons w rest ih =>
    cases k with
    | zero =>
      have hw := w.isLt
      simp [bytesOfWords]
      omega
    | succ k => simpa [bytesOfWords, Nat.mul_succ] using ih (Nat.lt_of_succ_lt_succ h)

end Sys2Proof

namespace Sys2Proof.Claims

open Sys2Proof.Machine

/-- Settles O53: power-on is the reset state, whose parts are read off. -/
theorem powerOnGivesEveryValue : Obligations.PowerOnGivesEveryValue := by
  refine fun s => ⟨rfl, fun r => ?_, rfl, rfl, rfl, rfl, Memory.read_nil, rfl, rfl, rfl, rfl⟩
  cases r <;> rfl

/-- Settles O54, by the definition with RESET_CLEARS_MEMORY at its default. -/
theorem resetKeepsMemoryAndStreams : Obligations.ResetKeepsMemoryAndStreams := fun _ => rfl

/-- Settles O55: `loadWords` is what `load` answers with when the image fits. -/
theorem loadWritesTheImageAlone : Obligations.LoadWritesTheImageAlone := by
  refine fun image base s wf => ⟨fun fits => ?_, fun past => if_neg (by omega)⟩
  refine ⟨loadWords s.mem base.toNat image, if_pos fits, Memory.loadWords_wf _ _ _ wf, fun k h => ?_,
    fun a => loadWords_read_outside image s.mem fits⟩
  rw [← loadWords_read_inside image wf fits h, BitVec.ofNat_add, BitVec.ofNat_toNat, BitVec.setWidth_eq]

/-- Settles O57: `wordsOfBytes_bytesOfWords_append` with nothing, and with the odd byte, after the image. -/
theorem imageBytesReadBack : Obligations.ImageBytesReadBack := by
  refine fun ws b => ⟨?_, bytesOfWords_length ws, wordsOfBytes_bytesOfWords_append ws [b],
    fun k => bytesOfWords_getElem? ws⟩
  simpa [wordsOfBytes] using wordsOfBytes_bytesOfWords_append ws []

end Sys2Proof.Claims
end

section

/-! PROOF. The assembler's instruction lines (30_encoding.md, section 4): the assembler's table and the table of R91 agree row by
row, and each row's words are its instruction's encoding. -/

namespace Sys2Proof.Machine.Assembler

open Sys2Proof.Claims

/-- `i` is an instruction the mnemonic may stand for, of `n` words, that the decoder reads back. -/
structure IsRow (m : Mnemonic) (n : Nat) (i : Instr) : Prop where
  wellFormed : WellFormed i = true
  words : (encode i).length = n
  opcode : ∃ op, opcodeOf i = some op ∧ op ∈ opcodesOfMnemonic m

/-- The assembler gives a value the word the statements give it, or none (R89, R90, R94). -/
theorem resolve_eq_ok_iff (ls : Labels) (v : Value) (w : Word) : resolve ls v = .ok w ↔ valueWord ls v = some w := by
  cases v with
  | lit x => simp [resolve, valueWord]
  | label name =>
    have same : (fun e : List Char × Word => e.1 == name) = fun e => decide (e.1 = name) := by
      funext e
      exact Bool.beq_eq_decide_eq e.1 name
    cases found : ls.find? (fun e => decide (e.1 = name)) <;> simp [resolve, valueWord, same, found]

/-- The words of a two-word line, when its value stands for a word (R80, R91). -/
theorem lineWords_twoWord {ls : Labels} {op : Opcode} {rd : Reg} {v : Value} {ws : List Word} :
    lineWords ls (.instr (.twoWord op rd v)) = .ok ws ↔
      ∃ w, valueWord ls v = some w ∧ ws = encodeI op (regNumber rd) w := by
  simp only [← resolve_eq_ok_iff]
  cases resolved : resolve ls v <;> simp [lineWords, resolved, eq_comm]

/-- The two tables, row by row: a line neither has; a line of one word; a line whose second word is the value `v`, with the
words the assembler emits for it. -/
theorem instrLine_cases (ls : Labels) (m : Mnemonic) (os : List Operand) :
    (instrLine m os = none ∧ sourceInstr ls m os = none) ∨
    (∃ i, instrLine m os = some (.oneWord i) ∧ sourceInstr ls m os = some i ∧ IsRow m 1 i) ∨
    (∃ op rd v, ∃ f : Word → Instr, instrLine m os = some (.twoWord op rd v) ∧
      sourceInstr ls m os = (valueWord ls v).map f ∧
      ∀ w, IsRow m 2 (f w) ∧ encode (f w) = encodeI op (regNumber rd) w) := by
  match os with
  | [] =>
    cases m with
    | nop | ret | halt => exact .inr (.inl ⟨_, rfl, rfl, rfl, rfl, _, rfl, by decide⟩)
    | _ => exact .inl ⟨rfl, rfl⟩
  | [.reg d] =>
    cases m with
    | push | pop => exact .inr (.inl ⟨_, rfl, rfl, rfl, rfl, _, rfl, by decide⟩)
    | _ => exact .inl ⟨rfl, rfl⟩
  | [.val v] =>
    cases m with
    | jmp | jz | jnz | jc | jn | call =>
      exact .inr (.inr ⟨_, _, v, _, rfl, rfl, fun w => ⟨⟨rfl, rfl, _, rfl, by decide⟩, rfl⟩⟩)
    | _ => exact .inl ⟨rfl, rfl⟩
  | [.reg d, .reg s] =>
    cases m with
    | mov | add | sub | and | or | xor | not | shl | shr | cmp | mul =>
      exact .inr (.inl ⟨_, rfl, rfl, rfl, rfl, _, rfl, by decide⟩)
    | _ => exact .inl ⟨rfl, rfl⟩
  | [.reg d, .val v] =>
    cases m with
    | ldi | lea | addi | subi =>
      exact .inr (.inr ⟨_, _, v, _, rfl, rfl, fun w => ⟨⟨rfl, rfl, _, rfl, by decide⟩, rfl⟩⟩)
    | _ => exact .inl ⟨rfl, rfl⟩
  | [.reg d, .memVal v] =>
    cases m with
    | ld | st => exact .inr (.inr ⟨_, _, v, _, rfl, rfl, fun w => ⟨⟨rfl, rfl, _, rfl, by decide⟩, rfl⟩⟩)
    | _ => exact .inl ⟨rfl, rfl⟩
  | [.reg d, .memReg s] =>
    cases m with
    | ld | st => exact .inr (.inl ⟨_, rfl, rfl, rfl, rfl, _, rfl, by decide⟩)
    | _ => exact .inl ⟨rfl, rfl⟩
  | [.memReg _] | [.memVal _] | .val _ :: _ :: _ | .memReg _ :: _ :: _ | .memVal _ :: _ :: _ | .reg _ :: .reg _ :: _ :: _
  | .reg _ :: .val _ :: _ :: _ | .reg _ :: .memReg _ :: _ :: _ | .reg _ :: .memVal _ :: _ :: _ =>
    cases m <;> exact .inl ⟨rfl, rfl⟩

end Sys2Proof.Machine.Assembler

namespace Sys2Proof.Claims

open Sys2Proof.Machine Sys2Proof.Machine.Assembler

/-- Settles O58: row by row (`instrLine_cases`), the words are the encoding of the table's instruction, which the decoder reads
back (`decode_encode`). -/
theorem assembledLinesDecodeToTheirMnemonic : Obligations.AssembledLinesDecodeToTheirMnemonic := by
  intro m os ls
  rcases instrLine_cases ls m os with ⟨noLine, noRow⟩ | ⟨i, line, row, isRow⟩ | ⟨op, rd, v, f, line, row, isRow⟩
  · simp [noLine, noRow]
  · refine ⟨fun ai ws rest hai hws => ?_, fun j hj => ⟨_, line, ?_⟩⟩
    · obtain rfl : _ = ai := Option.some.inj (line.symm.trans hai)
      cases hws
      obtain ⟨op, hop, mem⟩ := isRow.opcode
      exact ⟨isRow.words, i, op, row, decode_encode isRow.wellFormed rest, hop, mem⟩
    · obtain rfl : i = j := Option.some.inj (row.symm.trans hj)
      rfl
  · refine ⟨fun ai ws rest hai hws => ?_, fun j hj => ⟨_, line, ?_⟩⟩
    · obtain rfl : _ = ai := Option.some.inj (line.symm.trans hai)
      obtain ⟨w, value, rfl⟩ := lineWords_twoWord.mp hws
      obtain ⟨⟨wellFormed, words, op', hop, mem⟩, encoded⟩ := isRow w
      rw [← encoded]
      exact ⟨words, f w, op', by rw [row, value, Option.map_some], decode_encode wellFormed rest, hop, mem⟩
    · rw [row, Option.map_eq_some_iff] at hj
      obtain ⟨w, value, rfl⟩ := hj
      exact lineWords_twoWord.mpr ⟨w, value, (isRow w).2⟩

end Sys2Proof.Claims
end
